-- ==== Sys2Proof/Word.lean ====
section
/-! DEFINITION. The value types of rule R5 (00_scope.md section 4): unsigned values of a stated width, bit 0 the least
significant. Nothing in this hardware is signed. -/

namespace Sys2Proof

/-- An unsigned 8-bit value: the data of one chip at one address (R5, R17). -/
abbrev Byte := BitVec 8

/-- A control word: 24 bits, one per control signal (R9). -/
abbrev CW := BitVec 24

/-- An opcode of the 8-bit computer, 0 to 255 (R10). -/
abbrev Opcode := BitVec 8

/-- A step index, 0 to 7 (R4, R10). -/
abbrev Step := BitVec 3

/-- An address inside one chip, 11 bits (R17, R34). -/
abbrev RomAddr := BitVec 11

/-- An address of the shared logical address space, a 16-bit field (R17, R35). -/
abbrev LogAddr := BitVec 16

/-- A legal chip index: 0, 1 or 2 (R4). -/
abbrev Chip := Fin 3

/-- The microcode table, read by opcode and step; total, so every opcode has its 8 words (R11, R45, R53). -/
abbrev Table := Opcode → Step → CW

end Sys2Proof
end

