-- ==== Sys2Proof/Syntax.lean ====
section
/-! DEFINITION. The operations of the block as syntax: one constructor of `Instr` per row of opcode_table.json (R40), the
words they travel in, and the command record. -/

namespace Sys2Proof

/-- The command record `(addr, bytes[8])` (R37): `bytes[i]` is the byte of step `i` (R23). -/
structure Cmd where
  addr  : LogAddr
  bytes : Vector Byte 8
deriving DecidableEq, Repr

/-- The operations of rule R40. An operation names the port a word is presented at, and so the format the word is read in:
the block has no instruction stream and no operation code of its own (D22). DESIGN CHOICE, log entry 1. -/
inductive Operation where
  | lookup | split | mux | plane | join | romaddr | baseaddr | logaddr | romimage | encode | fullpass | wr
deriving DecidableEq, Repr

/-- A word presented at the port of an operation. The word is a number whose bit 0 is the least significant bit of the
pattern that opcode_table.json gives the row. -/
structure Request where
  operation : Operation
  word      : Nat
deriving DecidableEq, Repr

/-- Why a presented word is no instruction. -/
inductive Reject where
  /-- The word does not fit the width of the operation's format (R33 to R37). -/
  | tooWide (op : Operation)
  /-- A bit that the operation's format fixes (R35, R37, R42) has the other value. -/
  | fixedBits (op : Operation)
deriving DecidableEq, Repr

/-- One constructor per row of opcode_table.json. A chip index is any natural number, as the spec has it at the function
level (D4), so that a wrong index is an operand and its fault is stated; `WellFormed` says which fit the 2-bit port. -/
inductive Instr where
  /-- `LOOKUP(op, s)`, R45. -/
  | lookup (op : Opcode) (s : Step)
  /-- `SPLIT(cw)`, R56. -/
  | split (cw : CW)
  /-- `MUX(sel, p0, p1, p2)`, R57. -/
  | mux (sel : Nat) (p0 p1 p2 : Byte)
  /-- `PLANE(c, cw)`, R58. -/
  | plane (c : Nat) (cw : CW)
  /-- `JOIN(p2, p1, p0)`, plane 2 first, R59. -/
  | join (p2 p1 p0 : Byte)
  /-- `ROMADDR(op, s)`, R63. -/
  | romaddr (op : Opcode) (s : Step)
  /-- `BASEADDR(c, op)`, R64. -/
  | baseaddr (c : Nat) (op : Opcode)
  /-- `LOGADDR(c, op, s)`, R65. -/
  | logaddr (c : Nat) (op : Opcode) (s : Step)
  /-- `ROMIMAGE(c, T)` at one address, R70, R25. -/
  | romimage (c : Nat) (a : RomAddr)
  /-- The request `ENCODE 0` (`W0`), R36, R71, R76. -/
  | encode0
  /-- The request `ENCODE 1` (`W1`), R36, R71, R76. -/
  | encode1
  /-- The request `ENCODE 2` (`W2`), R36, R71, R76. -/
  | encode2
  /-- The illegal request `chip_sel = 11`, R36, R41, R91. -/
  | reservedChip3
  /-- `FULLPASS` (`FL`), R42, R75. -/
  | fullpass
  /-- `WR`, R83, R85. -/
  | wr (addr : LogAddr) (bytes : Vector Byte 8)
deriving DecidableEq, Repr

end Sys2Proof
end

