-- ==== Sys2Proof/WellFormed.lean ====
section
/-! DEFINITION. Which terms of `Instr` have a word of the spec's formats. -/

namespace Sys2Proof

/-- The chip index fits the 2-bit port `chip_sel` (R36, D4). The value 3 fits it and is illegal: its meaning is the fault of
R91, not a refusal. -/
abbrev fitsChipPort (c : Nat) : Bool := c < 4

/-- The address has the shape `000 cc oooooooo 000` of a command's address (R35, R37): its three high bits are zero. -/
abbrev topBitsZero (a : LogAddr) : Bool := a.toNat / 2 ^ 13 == 0

/-- The address is a multiple of 8 (R24, R37). -/
abbrev stepBitsZero (a : LogAddr) : Bool := a.toNat % 8 == 0

/-- The checks an instruction meets exactly when one of the spec's words stands for it. -/
def Instr.wellFormed : Instr → Bool
  | .lookup _ _ => true
  | .split _ => true
  | .mux sel _ _ _ => fitsChipPort sel
  | .plane c _ => fitsChipPort c
  | .join _ _ _ => true
  | .romaddr _ _ => true
  | .baseaddr c _ => fitsChipPort c
  | .logaddr c _ _ => fitsChipPort c
  | .romimage c _ => fitsChipPort c
  | .encode0 => true
  | .encode1 => true
  | .encode2 => true
  | .reservedChip3 => true
  | .fullpass => true
  | .wr addr _ => topBitsZero addr && stepBitsZero addr

end Sys2Proof
end

