-- ==== Sys2Proof/Decode.lean ====
section
/-! DEFINITION. The formats of 30_encoding.md as a decoder and an encoder: a word presented at an operation's port
(R33 to R37, opcode_table.json) becomes an instruction, or is rejected by name. -/

namespace Sys2Proof

/-- The `n` bits of `w` from bit `lo` up: `w[lo+n-1 : lo]` of R5. -/
def bitField (w lo n : Nat) : BitVec n := BitVec.ofNat n (w / 2 ^ lo)

/-- How many bits the format of an operation's word has: `ROMADDR` 11 (R34), `CW` 24 (R33), `REQ` then `CW` 26 (R40),
`LOGADDR` 16 (R35), `REQ` 2 (R36), `CMD` 80 (R37). The word of `ROMIMAGE` carries the chip index in two bits above the
11 of its table row (DESIGN CHOICE, log entry 17: the row's pattern has no place for the operand `c`). -/
def Operation.width : Operation → Nat
  | .lookup => 11
  | .split => 24
  | .mux => 26
  | .plane => 26
  | .join => 24
  | .romaddr => 11
  | .baseaddr => 16
  | .logaddr => 16
  | .romimage => 13
  | .encode => 2
  | .fullpass => 2
  | .wr => 80

/-- The instruction of a `REQ` word (R36): the chip index to encode, or the illegal value 3. -/
def decodeReq (w : Nat) : Instr :=
  if w % 4 = 0 then .encode0
  else if w % 4 = 1 then .encode1
  else if w % 4 = 2 then .encode2
  else .reservedChip3

/-- The eight data bytes of a `CMD` word: `bytes[0]` in bits 63:56, `bytes[7]` in bits 7:0 (R37). -/
def cmdBytes (w : Nat) : Vector Byte 8 :=
  #v[bitField w 56 8, bitField w 48 8, bitField w 40 8, bitField w 32 8, bitField w 24 8, bitField w 16 8,
     bitField w 8 8, bitField w 0 8]

/-- The instruction in a word that fits the operation's format. -/
def decodeFitting (op : Operation) (w : Nat) : Except Reject Instr :=
  match op with
  | .lookup => .ok (.lookup (bitField w 3 8) (bitField w 0 3))
  | .split => .ok (.split (bitField w 0 24))
  | .mux => .ok (.mux (w / 2 ^ 24) (bitField w 0 8) (bitField w 8 8) (bitField w 16 8))
  | .plane => .ok (.plane (w / 2 ^ 24) (bitField w 0 24))
  | .join => .ok (.join (bitField w 16 8) (bitField w 8 8) (bitField w 0 8))
  | .romaddr => .ok (.romaddr (bitField w 3 8) (bitField w 0 3))
  | .baseaddr =>
    if w / 2 ^ 13 = 0 ∧ w % 8 = 0 then .ok (.baseaddr (w / 2 ^ 11) (bitField w 3 8)) else .error (.fixedBits op)
  | .logaddr =>
    if w / 2 ^ 13 = 0 then .ok (.logaddr (w / 2 ^ 11) (bitField w 3 8) (bitField w 0 3)) else .error (.fixedBits op)
  | .romimage => .ok (.romimage (w / 2 ^ 11) (bitField w 0 11))
  | .encode => .ok (decodeReq w)
  | .fullpass => if w = 0 then .ok .fullpass else .error (.fixedBits op)
  | .wr =>
    if w / 2 ^ 77 = 0 ∧ w / 2 ^ 64 % 8 = 0 then .ok (.wr (bitField w 64 16) (cmdBytes w)) else .error (.fixedBits op)

/-- The decoder: total on every number, and a word outside the operation's format is rejected by name. -/
def decode (r : Request) : Except Reject Instr :=
  if r.word < 2 ^ r.operation.width then decodeFitting r.operation r.word else .error (.tooWide r.operation)

/-- Eight bytes as the 64 data bits of a `CMD` word, the first byte highest (R37). -/
def packBytes (b : Vector Byte 8) : Nat :=
  b.toList.foldl (fun acc x => acc * 2 ^ 8 + x.toNat) 0

/-- The word that stands for an instruction, and the port it is presented at. -/
def encode : Instr → Request
  | .lookup op s => ⟨.lookup, op.toNat * 2 ^ 3 + s.toNat⟩
  | .split cw => ⟨.split, cw.toNat⟩
  | .mux sel p0 p1 p2 => ⟨.mux, sel * 2 ^ 24 + p2.toNat * 2 ^ 16 + p1.toNat * 2 ^ 8 + p0.toNat⟩
  | .plane c cw => ⟨.plane, c * 2 ^ 24 + cw.toNat⟩
  | .join p2 p1 p0 => ⟨.join, p2.toNat * 2 ^ 16 + p1.toNat * 2 ^ 8 + p0.toNat⟩
  | .romaddr op s => ⟨.romaddr, op.toNat * 2 ^ 3 + s.toNat⟩
  | .baseaddr c op => ⟨.baseaddr, c * 2 ^ 11 + op.toNat * 2 ^ 3⟩
  | .logaddr c op s => ⟨.logaddr, c * 2 ^ 11 + op.toNat * 2 ^ 3 + s.toNat⟩
  | .romimage c a => ⟨.romimage, c * 2 ^ 11 + a.toNat⟩
  | .encode0 => ⟨.encode, 0⟩
  | .encode1 => ⟨.encode, 1⟩
  | .encode2 => ⟨.encode, 2⟩
  | .reservedChip3 => ⟨.encode, 3⟩
  | .fullpass => ⟨.fullpass, 0⟩
  | .wr addr bytes => ⟨.wr, addr.toNat * 2 ^ 64 + packBytes bytes⟩

/-- Which port a bare word of opcode_table.json is taken to belong to. The table's patterns coincide (R40, D22), so bits
alone do not name an operation: among the rows whose pattern, zeros above it, matches the word, the row with the most fixed
bits is taken, and of equal patterns the first row. DESIGN CHOICE, log entry 1. -/
def tableOperation (nbits w : Nat) : Operation :=
  if nbits ≤ 8 then .encode
  else if nbits ≤ 16 then
    if w / 2 ^ 13 = 0 ∧ w % 8 = 0 then .baseaddr
    else if w < 2 ^ 11 then .lookup
    else .logaddr
  else if nbits ≤ 24 then .split
  else if nbits ≤ 32 then .mux
  else .wr

/-- A bare table word as a presented word. -/
def tableRequest (nbits w : Nat) : Request :=
  ⟨tableOperation nbits (w % 2 ^ nbits), w % 2 ^ nbits⟩

/-- The instruction the decoder reads from a bare word of opcode_table.json. -/
def decodeTableWord (nbits w : Nat) : Option Instr :=
  match decode (tableRequest nbits w) with
  | .ok i => some i
  | .error _ => none

end Sys2Proof
end

