-- ==== Sys2Proof/Config.lean ====
section
/-! DEFINITION. What is fixed for one machine and not given by the spec (R4, 92_eei_decisions.md D9 to D11), and the free
values of 93_implementation_defined.md. Every constant here is opaque: no proof can see what it is, so a claim about the
machine holds for every value of it. -/

namespace Sys2Proof.Config

/-- The microcode table of this machine. OPEN in the spec (R11, R54, D9): configuration, never written by any event.
Log entry 14. -/
opaque T : Table

/-- The case of the hexadecimal digits in the text of a command. OPEN in the spec (R38, D10). Log entry 15. -/
opaque hexUpper : Bool

/-- The bytes sent after the `!` of a command. OPEN in the spec (R38, D11). Log entry 15. -/
opaque cmdEol : List Byte

/-- Free value (U7, R26, R85, D18): whether, at a moment, the byte of the command in flight has landed at an address.
Log entry 10. -/
opaque landed : Nat → Nat → Bool

/-- Free value (U13, R102): what `seq.chip` holds after the `rst` event. Log entry 12. -/
opaque resetChip : Nat → BitVec 2

/-- Free value (U13, R102): what `seq.op` holds after the `rst` event. Log entry 12. -/
opaque resetOp : Nat → Opcode

/-- Opcodes in the table, and commands of one pass (R4: `N_OPCODES`, `CMDS_PER_CHIP`). -/
def nOpcodes : Nat := 256

/-- The positions of the seven named signals in a control word (R7, R8). The spec gives no value (N1, D9), so they are
never a constant of the machine: the table predicates take them as an argument. -/
structure Positions where
  mai : Fin 24
  pco : Fin 24
  mo  : Fin 24
  iri : Fin 24
  ce  : Fin 24
  rsc : Fin 24
  hlt : Fin 24
deriving DecidableEq, Repr

end Sys2Proof.Config
end

