-- ==== Sys2Proof/Machine/Operands.lean ====
section
/-! DEFINITION. How every operand, field and address is assembled (R39): the projector, the multiplexer, the combiner and
their inverses as functions of their operands alone. -/

namespace Sys2Proof.Machine

/-- The chip index check (R91): the legal indices are 0, 1 and 2 and no other natural number (D4). -/
def chipOf? (c : Nat) : Option Chip :=
  if h : c < 3 then some ⟨c, h⟩ else none

/-- `SPLIT`, the bit-plane projector: plane 0 is bits 7:0, plane 1 bits 15:8, plane 2 bits 23:16 (R56). -/
def splitWord (cw : CW) : Byte × Byte × Byte :=
  (cw.extractLsb' 0 8, cw.extractLsb' 8 8, cw.extractLsb' 16 8)

/-- `MUX` for a legal selector: the plane the chip index selects (R57). -/
def muxByte (c : Chip) (p0 p1 p2 : Byte) : Byte :=
  match c with
  | 0 => p0
  | 1 => p1
  | 2 => p2

/-- `PLANE` for a legal chip index: `(cw >> (c * 8)) & 0xFF` (R58). -/
def planeByte (c : Chip) (cw : CW) : Byte :=
  ((cw >>> (c.val * 8)) &&& 0xFF#24).setWidth 8

/-- `JOIN`: `(p2 << 16) | (p1 << 8) | p0` (R59). -/
def joinWord (p2 p1 p0 : Byte) : CW :=
  (p2.setWidth 24 <<< 16) ||| (p1.setWidth 24 <<< 8) ||| p0.setWidth 24

/-- `ROMADDR`: `(op << 3) | s` in 11 bits (R63). -/
def romAddrOf (op : Opcode) (s : Step) : RomAddr :=
  (op.setWidth 11 <<< 3) ||| s.setWidth 11

/-- `BASEADDR` for a legal chip index: `(c << 11) + (op << 3)` in 16 bits (R64). -/
def baseAddrOf (c : Chip) (op : Opcode) : LogAddr :=
  (BitVec.ofNat 16 c.val <<< 11) + (op.setWidth 16 <<< 3)

/-- `LOGADDR` for a legal chip index: the base address plus the step (R65). -/
def logAddrOf (c : Chip) (op : Opcode) (s : Step) : LogAddr :=
  baseAddrOf c op + s.setWidth 16

/-- The opcode in an address inside a chip: `a[10:3]` (R67). -/
def romOp (a : RomAddr) : Opcode := a.extractLsb' 3 8

/-- The step in an address inside a chip: `a[2:0]` (R67). -/
def romStep (a : RomAddr) : Step := a.extractLsb' 0 3

/-- The chip a logical address belongs to: `A[12:11]` (R67). -/
def logChip (a : LogAddr) : BitVec 2 := a.extractLsb' 11 2

/-- The opcode in a logical address: `A[10:3]` (R67). -/
def logOp (a : LogAddr) : Opcode := a.extractLsb' 3 8

/-- The step in a logical address: `A[2:0]` (R67). -/
def logStep (a : LogAddr) : Step := a.extractLsb' 0 3

/-- The address inside the chip: `A[10:0]` (R67). -/
def logRom (a : LogAddr) : RomAddr := a.extractLsb' 0 11

/-- The plane of signal position `k`: `k >> 3` (R6). -/
def signalPlane (k : Fin 24) : Chip := ⟨k.val / 8, by omega⟩

/-- The bit of signal position `k` inside its plane: `k & 7` (R6). -/
def signalBit (k : Fin 24) : Nat := k.val % 8

/-- The value of a named signal: `2^POS_S` (R7). -/
def signalWord (k : Fin 24) : CW := 1#24 <<< k.val

end Sys2Proof.Machine
end

