-- ==== Sys2Proof/Machine/State.lean ====
section
/-! DEFINITION. The machine's state as plain data (10_state.md): the sequencer's five fields (R14), the observation state
`out` and `L` (R18, R19), the fault record (R90), and the model's own fields (log entries 2, 4, 7, 13). -/

namespace Sys2Proof.Machine

/-- `seq.mode` (R14): the code 3 is never taken, so it has no constructor. -/
inductive Mode where
  | idle | busy | fault
deriving DecidableEq, Repr

/-- The 2-bit code of a mode (R14). -/
def Mode.code : Mode → BitVec 2
  | .idle => 0
  | .busy => 1
  | .fault => 2

/-- `seq.cause` (R14, R90): the code 3 is not used, so it has no constructor. -/
inductive Cause where
  | none | invalidChipIndex | transportFailure
deriving DecidableEq, Repr

/-- The 2-bit code of a cause (R90). -/
def Cause.code : Cause → BitVec 2
  | .none => 0
  | .invalidChipIndex => 1
  | .transportFailure => 2

/-- The sequencer's five fields, the whole mutable state of the block (R14). -/
structure Seq where
  mode    : Mode
  chip    : BitVec 2
  op      : Opcode
  pending : Bool
  cause   : Cause
deriving DecidableEq, Repr

/-- A map from addresses to bytes as cells; an address with no cell has no value (R19). -/
abbrev Memory := List Host.Cell

/-- What an operation answered on its outputs (R36, R40). -/
inductive Answer where
  /-- A control word: `LOOKUP`, `JOIN`. -/
  | word (cw : CW)
  /-- The three planes: `SPLIT`. -/
  | planes (p0 p1 p2 : Byte)
  /-- One byte: `MUX`, `PLANE`, `ROMIMAGE` at an address. -/
  | byte (b : Byte)
  /-- An address inside a chip: `ROMADDR`. -/
  | romAddr (a : RomAddr)
  /-- A logical address: `BASEADDR`, `LOGADDR`. -/
  | logAddr (a : LogAddr)
  /-- The text of a command, one byte a character: `WR`. -/
  | text (chars : List Byte)
deriving DecidableEq, Repr

/-- What happens next at the boundary of the block (R32, R100). -/
inductive Event where
  /-- The host presents a word at the port of an operation; at the `start` port this is the event `start` (R36). -/
  | request (r : Request)
  /-- Nothing arrives: whichever of the block and the host's full pass can move, moves (R77, R75). -/
  | turn
  /-- The transport saw the end-of-action marker for the presented command (R78, R86). -/
  | ack
  /-- The transport reports a fatal failure (R93). -/
  | xfail
  /-- Reset (R102). -/
  | rst
deriving DecidableEq, Repr

/-- The machine. -/
structure State where
  /-- The sequencer (R14). -/
  seq : Seq
  /-- Every command emitted since reset, the first one first (R18). -/
  out : List Cmd
  /-- What the acknowledged `WR` commands since reset have written (R19). -/
  L : Memory
  /-- The offending index of the `InvalidChipIndex` for which the block stands in `FAULT`, kept by the model and not by the
  hardware (R90). Log entry 19. -/
  faultRecord : Option Nat
  /-- The offending index of every `InvalidChipIndex` raised since reset, in any mode, the first one first (R57, R61, R69, R90,
  R91, U1). The model's bookkeeping, as `out` is. Log entry 19. -/
  raised : List Nat
  /-- The offending index of the first `InvalidChipIndex` raised while a pass ran and not yet entered: the block enters `FAULT`
  for it when no pass runs and none is planned (R96, R97). The model's bookkeeping. Log entry 5. -/
  due : Option Nat
  /-- The model's own: what the latest operation answered, `none` where it had no result. Log entry 4. -/
  answer : Option Answer
  /-- The model's own: the chip requests the host still has to make in a full pass (R75). Log entry 7. -/
  plan : List Nat
  /-- The model's own: the events still to come, the next one first. Log entry 2. -/
  schedule : List Event
  /-- The model's own: counts the steps taken; the free values of `Config` are keyed by it. Log entry 13. -/
  moment : Nat
deriving DecidableEq, Repr

/-- Faults of the HOST's outcome type. The spec's faults are states (R94), never one of these: no meaning and no step
answers `fault`. -/
inductive Fault where
  /-- Raised by `Sys2Proof.Machine.readL` only, which models a reader of the chips and is called by no instruction and no
  step: the address has no value (R19, U6: "a read of it by a model of the chips is a `fault`"), and no command in flight has
  landed there (U7; log entry 26). Safe. -/
  | noValue (addr : Nat)
deriving DecidableEq, Repr

/-- Refusals. -/
inductive Refusal where
  /-- Raised by `exec` for an instruction with no meaning yet; at present by none. Safe. -/
  | notModelled (mnemonic : String)
  /-- Raised by `step` when the presented word is no word of the operation's format (R33 to R37): the ports of R36 cannot
  carry it. Safe. -/
  | noInstruction (why : Reject)
deriving DecidableEq, Repr

/-- The machine right after reset (R20, R102): `IDLE`, nothing pending, no cause, nothing emitted, nothing known to be
written. The spec leaves `seq.chip` and `seq.op` unspecified: the zeros here are a DESIGN CHOICE (log entry 11), as are the
values of the model's own fields (log entry 22). -/
def State.reset : State where
  seq := { mode := .idle, chip := 0, op := 0, pending := false, cause := .none }
  out := []
  L := []
  faultRecord := none
  raised := []
  due := none
  answer := none
  plan := []
  schedule := []
  moment := 0

end Sys2Proof.Machine
end

