-- ==== Sys2Proof/Machine/Ops.lean ====
section
/-! DEFINITION. The named operations over the state that the meanings share: the map `L`, the answer of an operation, fault
entry and the one way out of it. -/

namespace Sys2Proof.Machine

/-- What `L` holds at an address; `none` where no acknowledged command has written (R19). -/
def Memory.read? : Memory → Nat → Option Byte
  | [], _ => none
  | (a', b) :: rest, a => if a = a' then some b else Memory.read? rest a

/-- `L[a] <- b`: the cells stay in rising order, one per address. -/
def Memory.write : Memory → Nat → Byte → Memory
  | [], a, b => [(a, b)]
  | (a', b') :: rest, a, b =>
    if a < a' then (a, b) :: (a', b') :: rest
    else if a = a' then (a, b) :: rest
    else (a', b') :: Memory.write rest a b

/-- `MemWrite(LOGICAL, addr, n, bytes)`: byte `i` goes to `addr + i` (R23, R85). The sum is one of the 16-bit field
(log entry 9; for the multiples of 8 of R24 it never carries out of the low three bits). -/
def Memory.writeBytes : Memory → LogAddr → List Byte → Memory
  | m, _, [] => m
  | m, a, b :: bs => Memory.writeBytes (m.write a.toNat b) (a + 1) bs

/-- The canonical form: addresses strictly rising, each inside the 16-bit field (R17). An unlisted address has no value, so
no cell can equal what it reads as. -/
abbrev Memory.wf (m : Memory) : Prop :=
  (m.map Prod.fst).Pairwise (· < ·) ∧ ∀ x ∈ m, x.1 < 2 ^ 16

/-- A combinational operation shows its result and writes nothing of the block (R13). -/
def State.answerWith (s : State) (a : Answer) : State :=
  { s with answer := some a }

/-- Fault entry (R94): the mode and the cause change, and `seq.chip`, `seq.op`, `seq.pending`, `out` and `L` keep their
values. The model's fault record takes what R90 says is recorded, and the operation has no result. -/
def State.enterFault (s : State) (cause : Cause) (record : Option Nat) : State :=
  { s with seq := { s.seq with mode := .fault, cause := cause }, faultRecord := record, answer := none }

/-- What raising `InvalidChipIndex(c)` does in every mode (R57, R61, R69, R90, U1): the operation has no result, and the fault
is recorded with the offending index. -/
def State.recordInvalidChip (s : State) (c : Nat) : State :=
  { s with raised := s.raised ++ [c], answer := none }

/-- `raise InvalidChipIndex(c)` by an operation used on its own: it yields no result, and the sequencer enters `FAULT` with the
cause recorded (00_scope.md section 4, R91, R94). In `IDLE`, with no pass running, it does so at once. While a pass runs nothing
may stop or divert it (R96, which counts a full pass of 768 commands as one), nothing but `ack`, `xfail` or `rst` ends its wait
(R101, R108), and this fault is one of `IDLE`, when no pass runs (R97): the raise is due, and `takeRaise` enters `FAULT` when
the pass is over. In `FAULT` the block keeps its first fault (R95). That the entry waits is DEDUCED, log entry 5. -/
def State.raiseInvalidChip (s : State) (c : Nat) : State :=
  match s.seq.mode, s.plan with
  | .idle, [] => (s.recordInvalidChip c).enterFault .invalidChipIndex (some c)
  | .idle, _ :: _ => { s.recordInvalidChip c with due := s.due.or (some c) }
  | .busy, _ => { s.recordInvalidChip c with due := s.due.or (some c) }
  | .fault, _ => s.recordInvalidChip c

/-- The block with a raise that is due entered: in `IDLE`, when no pass runs and no request of a full pass is still to be made,
and before anything else is taken (R94, R96, R97; log entry 5). Otherwise it is the block as it is. -/
def State.takeRaise (s : State) : State :=
  match s.seq.mode, s.plan, s.due with
  | .idle, [], some c => { s.enterFault .invalidChipIndex (some c) with due := none }
  | .idle, [], none => s
  | .idle, _ :: _, _ => s
  | .busy, _, _ => s
  | .fault, _, _ => s

/-- The `rst` event (R102), the only way out of `FAULT` (R95): `IDLE`, nothing pending, no cause, `out` and `L` emptied;
`seq.chip` and `seq.op` become free values (log entry 12). The model's records restart as `out` does (log entry 19), and the
host's full pass ends with its process (log entry 7). -/
def State.resetEvent (s : State) : State :=
  { s with
    seq := { mode := .idle, chip := Config.resetChip s.moment, op := Config.resetOp s.moment, pending := false,
             cause := .none }
    out := [], L := [], faultRecord := none, raised := [], due := none, answer := none, plan := [] }

/-- `Emit(k)`: appends a command to `out` (R18). -/
def State.emitCmd (s : State) (k : Cmd) : State :=
  { s with out := s.out ++ [k] }

/-- The outcome of an operation with a chip index operand: the answer for a legal index, `InvalidChipIndex` for any other
(R61, R69, R70). -/
def answerForChip (c : Nat) (f : Chip → Answer) (s : State) : Host.Outcome State Fault Refusal :=
  match chipOf? c with
  | some c => .next (s.answerWith (f c))
  | none => .next (s.raiseInvalidChip c)

end Sys2Proof.Machine
end

