-- ==== Sys2Proof/Machine/Combiner.lean ====
section
/-! DEFINITION. The address combiner family (42_address_combiner.md): `ROMADDR`, `BASEADDR`, `LOGADDR`. -/

namespace Sys2Proof.Machine

/-- `ROMADDR(op, s)`: takes no chip index and cannot fault (R63, R69). -/
def execRomaddr (op : Opcode) (st : Step) (s : State) : Host.Outcome State Fault Refusal :=
  .next (s.answerWith (.romAddr (romAddrOf op st)))

/-- `BASEADDR(c, op)`; a chip index other than 0, 1, 2 raises `InvalidChipIndex` (R64, R69). -/
def execBaseaddr (c : Nat) (op : Opcode) (s : State) : Host.Outcome State Fault Refusal :=
  answerForChip c (fun c => .logAddr (baseAddrOf c op)) s

/-- `LOGADDR(c, op, s)`; a chip index other than 0, 1, 2 raises `InvalidChipIndex` (R65, R69). -/
def execLogaddr (c : Nat) (op : Opcode) (st : Step) (s : State) : Host.Outcome State Fault Refusal :=
  answerForChip c (fun c => .logAddr (logAddrOf c op st)) s

end Sys2Proof.Machine
end

