-- ==== Sys2Proof/Machine/Command.lean ====
section
/-! DEFINITION. The `WR` command (44_command_emitter.md): its text (R38, R83), reading the text back (R84), and its effect on
`L` (R85). Characters are bytes. -/

namespace Sys2Proof.Machine

/-- One hexadecimal digit, `0` to `9` then the letters in the chosen case (R38, R83). -/
def hexDigit (upper : Bool) (d : BitVec 4) : Byte :=
  if d.toNat < 10 then BitVec.ofNat 8 (0x30 + d.toNat)
  else if upper then BitVec.ofNat 8 (0x41 + (d.toNat - 10))
  else BitVec.ofNat 8 (0x61 + (d.toNat - 10))

/-- `hex2(v)`: `v[7:4]` then `v[3:0]` (R83). -/
def hex2 (upper : Bool) (v : Byte) : List Byte :=
  [hexDigit upper (v.extractLsb' 4 4), hexDigit upper (v.extractLsb' 0 4)]

/-- `hex4(v)`: `v[15:12]`, `v[11:8]`, `v[7:4]`, `v[3:0]` (R83). -/
def hex4 (upper : Bool) (v : LogAddr) : List Byte :=
  [hexDigit upper (v.extractLsb' 12 4), hexDigit upper (v.extractLsb' 8 4), hexDigit upper (v.extractLsb' 4 4),
   hexDigit upper (v.extractLsb' 0 4)]

/-- `WRTEXT(addr, bytes)` for a digit case and the bytes after the `!`: `WR AAAA VV VV VV VV VV VV VV VV !` (R38, R83). -/
def wrTextWith (upper : Bool) (eol : List Byte) (addr : LogAddr) (bytes : Vector Byte 8) : List Byte :=
  [0x57, 0x52, 0x20] ++ hex4 upper addr ++ bytes.toList.flatMap (fun b => 0x20 :: hex2 upper b) ++ [0x20, 0x21] ++ eol

/-- `WRTEXT` of this machine (R38: `HEX_UPPER`, `CMD_EOL`). -/
def wrText (addr : LogAddr) (bytes : Vector Byte 8) : List Byte :=
  wrTextWith Config.hexUpper Config.cmdEol addr bytes

/-- The value of a hexadecimal digit, letters in either case (R84). -/
def hexValue? (ch : Byte) : Option (BitVec 4) :=
  let n := ch.toNat
  if 0x30 ≤ n ∧ n ≤ 0x39 then some (BitVec.ofNat 4 (n - 0x30))
  else if 0x41 ≤ n ∧ n ≤ 0x46 then some (BitVec.ofNat 4 (n - 0x41 + 10))
  else if 0x61 ≤ n ∧ n ≤ 0x66 then some (BitVec.ofNat 4 (n - 0x61 + 10))
  else none

/-- The byte written at characters `k` and `k + 1`, counting the `W` as character 1 (R84). -/
def byteAt? (t : List Byte) (k : Nat) : Option Byte :=
  match hexValue? (t.getD (k - 1) 0), hexValue? (t.getD k 0) with
  | some h, some l => some (h ++ l)
  | _, _ => none

/-- Whether the first 33 characters have the fixed letters, spaces and terminator of R38. The string of R83 is 33 characters
followed by `CMD_EOL`, and R84 does not say whether a receiver still has `CMD_EOL` before it: what follows the terminator `!`
is neither required nor looked at. DESIGN CHOICE, log entry 25. -/
def wrShape (t : List Byte) : Bool :=
  t.take 3 == [0x57, 0x52, 0x20] && (List.range 8).all (fun i => t.getD (7 + 3 * i) 0 == 0x20) &&
    (t.drop 31).take 2 == [0x20, 0x21]

/-- Reading a text of the shape of R83 back: the address from characters 4 to 7 and `bytes[i]` from characters `9 + 3i` and
`10 + 3i` (R84), with `CMD_EOL` after the `!` or without (log entry 25). Texts of another shape are not the block's (N12) and
have no reading. -/
def readText? (t : List Byte) : Option Cmd :=
  if wrShape t then
    match byteAt? t 4, byteAt? t 6, byteAt? t 9, byteAt? t 12, byteAt? t 15, byteAt? t 18, byteAt? t 21, byteAt? t 24,
      byteAt? t 27, byteAt? t 30 with
    | some hi, some lo, some b0, some b1, some b2, some b3, some b4, some b5, some b6, some b7 =>
      some { addr := hi ++ lo, bytes := #v[b0, b1, b2, b3, b4, b5, b6, b7] }
    | _, _, _, _, _, _, _, _, _, _ => none
  else none

/-- `WR` on its own: answers the text, in every mode (R83: it raises no fault). Its effect on `L` comes when it is
acknowledged (R85): in `IDLE` the exchange is made and is one step; in `BUSY` the only command that can be acknowledged is
the one presented (R78, R100, R105), and in `FAULT` none (R94), so there `L` keeps its contents. Log entry 8. -/
def execWr (addr : LogAddr) (bytes : Vector Byte 8) (s : State) : Host.Outcome State Fault Refusal :=
  match s.seq.mode with
  | .idle => .next { s.answerWith (.text (wrText addr bytes)) with L := s.L.writeBytes addr bytes.toList }
  | .busy => .next (s.answerWith (.text (wrText addr bytes)))
  | .fault => .next (s.answerWith (.text (wrText addr bytes)))

end Sys2Proof.Machine
end

