-- ==== Sys2Proof/Machine/Projector.lean ====
section
/-! DEFINITION. The projector and multiplexer family (41_plane_projector_mux.md): `SPLIT`, `MUX`, `PLANE`, `JOIN`. -/

namespace Sys2Proof.Machine

/-- `SPLIT(cw)` (R56). -/
def execSplit (cw : CW) (s : State) : Host.Outcome State Fault Refusal :=
  .next (s.answerWith (.planes (splitWord cw).1 (splitWord cw).2.1 (splitWord cw).2.2))

/-- `MUX(sel, p0, p1, p2)`; a selector other than 0, 1, 2 raises `InvalidChipIndex` (R57, R61). -/
def execMux (sel : Nat) (p0 p1 p2 : Byte) (s : State) : Host.Outcome State Fault Refusal :=
  answerForChip sel (fun c => .byte (muxByte c p0 p1 p2)) s

/-- `PLANE(c, cw)`; a chip index other than 0, 1, 2 raises `InvalidChipIndex` and not the byte 0 (R58, R61). -/
def execPlane (c : Nat) (cw : CW) (s : State) : Host.Outcome State Fault Refusal :=
  answerForChip c (fun c => .byte (planeByte c cw)) s

/-- `JOIN(p2, p1, p0)` (R59). -/
def execJoin (p2 p1 p0 : Byte) (s : State) : Host.Outcome State Fault Refusal :=
  .next (s.answerWith (.word (joinWord p2 p1 p0)))

end Sys2Proof.Machine
end

