-- ==== Sys2Proof/Machine/Encoder.lean ====
section
/-! DEFINITION. The pure functions of 43_encode_sequencer.md section 1: the ROM image, the commands of `ENCODE` and of
`FULLPASS`, for a given table and chip; and the operation `ROMIMAGE`. -/

namespace Sys2Proof.Machine

/-- `ROMIMAGE(c, T)(a) = PLANE(c, T[a[10:3]][a[2:0]])` (R70). Derived, stored nowhere (R12). -/
def romImage (T : Table) (c : Chip) (a : RomAddr) : Byte :=
  planeByte c (T (romOp a) (romStep a))

/-- `cmd(c, op)`: the base address and the 8 plane bytes of one opcode, step 0 first (R71). -/
def cmdOf (T : Table) (c : Chip) (op : Opcode) : Cmd where
  addr := baseAddrOf c op
  bytes := Vector.ofFn fun i : Fin 8 => planeByte c (T op (BitVec.ofNat 3 i.val))

/-- `ENCODE(c, T)` for a legal chip: the commands of opcodes 0 to 255, ascending (R71, R72). -/
def encodeCmds (T : Table) (c : Chip) : List Cmd :=
  (List.range Config.nOpcodes).map fun n => cmdOf T c (BitVec.ofNat 8 n)

/-- `ENCODE(c, T)` at the function level: no value for an index outside 0, 1, 2 (R71, R74, D4). -/
def encodeFn? (T : Table) (c : Nat) : Option (List Cmd) :=
  (chipOf? c).map (encodeCmds T)

/-- `FULLPASS(T) = ENCODE(0, T) ++ ENCODE(1, T) ++ ENCODE(2, T)` (R75). -/
def fullPassCmds (T : Table) : List Cmd :=
  encodeCmds T 0 ++ encodeCmds T 1 ++ encodeCmds T 2

/-- `ROMIMAGE(c, T)` at one address; a chip index other than 0, 1, 2 raises `InvalidChipIndex` (R70, R25). -/
def execRomimage (c : Nat) (a : RomAddr) (s : State) : Host.Outcome State Fault Refusal :=
  answerForChip c (fun c => .byte (romImage Config.T c a)) s

end Sys2Proof.Machine
end

