-- ==== Sys2Proof/Machine/Sequencer.lean ====
section
/-! DEFINITION. The sequencer (43_encode_sequencer.md section 2): the steps `START`, `EMIT`, `ACK`, `XFAIL`, the requests
that issue `START`, and the views of a command in flight. A step that is not enabled leaves the state as it is
(log entry 3). -/

namespace Sys2Proof.Machine

/-- `START(c)` (R76): enabled in `IDLE` only; the chip index is checked before everything else, and an
illegal one is fault entry at once (R91, R94, R97). -/
def start (c : Nat) (s : State) : State :=
  match s.seq.mode with
  | .idle =>
    match chipOf? c with
    | some c' =>
      { s with seq := { s.seq with mode := .busy, chip := BitVec.ofNat 2 c'.val, op := 0, pending := false } }
    | none => (s.recordInvalidChip c).enterFault .invalidChipIndex (some c)
  | .busy => s
  | .fault => s

/-- The command of the sequencer's position: what `EMIT` emits and what is presented while it is pending (R77). A chip field
of 3 has none; no run reaches it in `BUSY` (log entry 21). -/
def currentCmd? (T : Table) (s : State) : Option Cmd :=
  (chipOf? s.seq.chip.toNat).map fun c => cmdOf T c s.seq.op

/-- The addresses an `EMIT` presents at the table read port `tbl_op`, `tbl_step` (R36): the 8 words of one opcode (R25). -/
def tableReads (s : State) : List RomAddr :=
  (List.range 8).map fun i => romAddrOf s.seq.op (BitVec.ofNat 3 i)

/-- `EMIT` for a given table (R77): enabled in `BUSY` with nothing pending; no effect on `L`. -/
def emitWith (T : Table) (s : State) : State :=
  if s.seq.mode = .busy ∧ s.seq.pending = false then
    match currentCmd? T s with
    | some k => { s.emitCmd k with seq := { s.seq with pending := true } }
    | none => s
  else s

/-- The sequencer after the pending command is acknowledged (R78, R79): after opcode 255 the pass is complete and `seq.op`
stays, and otherwise the next opcode is next. -/
def acknowledged (q : Seq) : Seq :=
  if q.op = 255 then { q with pending := false, mode := .idle }
  else { q with pending := false, op := q.op + 1 }

/-- `ACK` for a given table (R78): enabled in `BUSY` with a command pending; its 8 bytes reach `L` together (R85). -/
def ackWith (T : Table) (s : State) : State :=
  if s.seq.mode = .busy ∧ s.seq.pending = true then
    match currentCmd? T s with
    | some k => { s with L := s.L.writeBytes k.addr k.bytes.toList, seq := acknowledged s.seq }
    | none => s
  else s

/-- `EMIT` of this machine. -/
def emit (s : State) : State := emitWith Config.T s

/-- `ACK` of this machine. -/
def acknowledge (s : State) : State := ackWith Config.T s

/-- `XFAIL` (R93): enabled in `BUSY`, whether a command is pending or not; fault entry with cause 2 and nothing beyond the
code (R90, R94). -/
def xfail (s : State) : State :=
  if s.seq.mode = .busy then s.enterFault .transportFailure none else s

/-- The next request of a full pass, made once the one before has completed (R75, R79). -/
def continuePlan (s : State) : State :=
  match s.plan with
  | c :: rest => start c { s with plan := rest }
  | [] => s

/-- The move of whichever of the block and the host's full pass can move; they never both can (R77, R75). -/
def turn (s : State) : State :=
  match s.seq.mode with
  | .busy => emit s
  | .idle => continuePlan s
  | .fault => s

/-- Whether `turn` has a move. -/
def canMove (s : State) : Bool :=
  match s.seq.mode with
  | .busy => !s.seq.pending && decide (s.seq.chip.toNat < 3)
  | .idle => !s.plan.isEmpty
  | .fault => false

/-- The request `ENCODE 0` is `START(0)` (R36, R76); the pass follows step by step (R77 to R79, log entry 6). -/
def execEncode0 (s : State) : Host.Outcome State Fault Refusal := .next (start 0 s)

/-- The request `ENCODE 1` is `START(1)` (R36, R76). -/
def execEncode1 (s : State) : Host.Outcome State Fault Refusal := .next (start 1 s)

/-- The request `ENCODE 2` is `START(2)` (R36, R76). -/
def execEncode2 (s : State) : Host.Outcome State Fault Refusal := .next (start 2 s)

/-- The illegal request `chip_sel = 11` is `START(3)`: fault `InvalidChipIndex`, nothing emitted (R36, R76, R91). -/
def execReservedChip3 (s : State) : Host.Outcome State Fault Refusal := .next (start 3 s)

/-- `FULLPASS` (R75): the first of the host's three requests, the other two planned; like every `START` it is not taken
outside `IDLE`. What becomes of requests of an earlier full pass that are still planned, R75 and R106 do not say: the earlier
full pass is given up and its plan replaced. DESIGN CHOICE, log entry 7. -/
def execFullpass (s : State) : Host.Outcome State Fault Refusal :=
  match s.seq.mode with
  | .idle => .next (start 0 { s with plan := [1, 2] })
  | .busy => .next s
  | .fault => .next s

/-- The command in flight: emitted and not acknowledged, in a running pass or in one that failed (R14, R94). -/
def inFlight? (s : State) : Option Cmd :=
  if s.seq.pending then currentCmd? Config.T s else none

/-- What the shared address space may hold at an address: what `L` holds, but for the 8 addresses of a command in flight,
where a free value decides between the old content and the new byte (R26, R85, R93, U7; log entry 10). -/
def programmed? (s : State) (a : LogAddr) : Option Byte :=
  match inFlight? s with
  | none => s.L.read? a.toNat
  | some k =>
    if Config.landed s.moment a.toNat then (s.L.writeBytes k.addr k.bytes.toList).read? a.toNat
    else s.L.read? a.toNat

/-- A reader of the chips: it sees what they may hold, and an address with no value is a fault (R19, U6). At an address of a
command in flight U6 (no acknowledged command has written it) and U7 (the old content or the new byte) pull apart, and the
reader follows U7: it reads the view `programmed?`, so the free value decides. DESIGN CHOICE, log entry 26. No instruction and
no step reads `L` (R29). -/
def readL (s : State) (a : LogAddr) : Except Fault Byte :=
  match programmed? s a with
  | some b => .ok b
  | none => .error (.noValue a.toNat)

/-- The port `cmd_addr`: the base address of the command presented, while `cmd_valid` is 1 (R36, R77). -/
def cmdAddrPort? (s : State) : Option LogAddr := (inFlight? s).map Cmd.addr

/-- The 64 bits of the port `cmd_data` for eight bytes: `bytes[i]` is `cmd_data[8i+7 : 8i]`, the reverse of the record of R37
(R36). -/
def cmdData (b : Vector Byte 8) : BitVec 64 :=
  BitVec.ofNat 64 (b.toList.foldr (fun x acc => x.toNat + 2 ^ 8 * acc) 0)

/-- The port `cmd_data`, while `cmd_valid` is 1 (R36, R77). -/
def cmdDataPort? (s : State) : Option (BitVec 64) := (inFlight? s).map fun k => cmdData k.bytes

end Sys2Proof.Machine
end

