-- ==== Sys2Proof/Machine/Table.lean ====
section
/-! DEFINITION. The microcode table family (40_microcode_table.md): `LOOKUP`, and what an admissible table satisfies. -/

namespace Sys2Proof.Machine

/-- `LOOKUP(op, s) = T[op][s]` for a given table (R45). -/
def lookupIn (T : Table) (op : Opcode) (s : Step) : CW := T op s

/-- `LOOKUP`: answers the table's word; always succeeds and has no side effect (R45). -/
def execLookup (op : Opcode) (st : Step) (s : State) : Host.Outcome State Fault Refusal :=
  .next (s.answerWith (.word (lookupIn Config.T op st)))

/-- The first word of the fetch cycle, `MAI | PCO` (R46). -/
def fetchWord0 (p : Config.Positions) : CW := signalWord p.mai ||| signalWord p.pco

/-- The second word of the fetch cycle, `MO | IRI | CE` (R47). -/
def fetchWord1 (p : Config.Positions) : CW := signalWord p.mo ||| signalWord p.iri ||| signalWord p.ce

/-- The default no-operation entry (R48). -/
def defaultEntry (p : Config.Positions) : Vector CW 8 :=
  #v[fetchWord0 p, fetchWord1 p, signalWord p.rsc, 0, 0, 0, 0, 0]

/-- The entry of opcode `0xFF`, halt (R50). -/
def haltEntry (p : Config.Positions) : Vector CW 8 :=
  #v[fetchWord0 p, fetchWord1 p, signalWord p.hlt, signalWord p.rsc, 0, 0, 0, 0]

/-- The positions of the seven named signals differ pairwise (R7). -/
def positionsDiffer (p : Config.Positions) : Bool :=
  decide [p.mai, p.pco, p.mo, p.iri, p.ce, p.rsc, p.hlt].Nodup

/-- Step `m` is the closing step of an entry: its word has the bit of `RSC`, and every later word is zero (R49). -/
def closesAt (p : Config.Positions) (entry : Step → CW) (m : Step) : Prop :=
  2 ≤ m.toNat ∧ (entry m).getLsbD p.rsc.val = true ∧ ∀ s : Step, m.toNat < s.toNat → entry s = 0

/-- The admissible-table predicate for given positions and a given set of real opcodes (R54: rules R46 to R50; R53 is the
type of the table). -/
def admissibleWith (T : Table) (p : Config.Positions) (real : Opcode → Bool) : Prop :=
  positionsDiffer p = true ∧ real 0xFF = true ∧
  (∀ op, T op 0 = fetchWord0 p) ∧
  (∀ op, T op 1 = fetchWord1 p) ∧
  (∀ op, real op = false → ∀ s : Step, T op s = (defaultEntry p)[s.toNat]) ∧
  (∀ op, ∃ m, closesAt p (T op) m) ∧
  (∀ s : Step, T 0xFF s = (haltEntry p)[s.toNat])

/-- A table is admissible for some positions and some set of real opcodes (R54). No operation of the block needs it. -/
def admissible (T : Table) : Prop :=
  ∃ p real, admissibleWith T p real

end Sys2Proof.Machine
end

