-- ==== Sys2Proof/Machine/Dispatch.lean ====
section
/-! DEFINITION. One arm per operation of opcode_table.json, each a direct call of its meaning. -/

namespace Sys2Proof.Machine

def exec (i : Instr) (s : State) : Host.Outcome State Fault Refusal :=
  match i with
  | .lookup op st => Sys2Proof.Machine.execLookup op st s
  | .split cw => Sys2Proof.Machine.execSplit cw s
  | .mux sel p0 p1 p2 => Sys2Proof.Machine.execMux sel p0 p1 p2 s
  | .plane c cw => Sys2Proof.Machine.execPlane c cw s
  | .join p2 p1 p0 => Sys2Proof.Machine.execJoin p2 p1 p0 s
  | .romaddr op st => Sys2Proof.Machine.execRomaddr op st s
  | .baseaddr c op => Sys2Proof.Machine.execBaseaddr c op s
  | .logaddr c op st => Sys2Proof.Machine.execLogaddr c op st s
  | .romimage c a => Sys2Proof.Machine.execRomimage c a s
  | .encode0 => Sys2Proof.Machine.execEncode0 s
  | .encode1 => Sys2Proof.Machine.execEncode1 s
  | .encode2 => Sys2Proof.Machine.execEncode2 s
  | .reservedChip3 => Sys2Proof.Machine.execReservedChip3 s
  | .fullpass => Sys2Proof.Machine.execFullpass s
  | .wr addr bytes => Sys2Proof.Machine.execWr addr bytes s

end Sys2Proof.Machine
end

