-- ==== Sys2Proof/Machine/Step.lean ====
section
/-! DEFINITION. One step of the machine: the next event of the schedule, or the machine's own move (R32, R80, R100). -/

namespace Sys2Proof.Machine

/-- One step of a block with no raise to enter. An event that arrives is consumed. With nothing scheduled the block or the
host's full pass moves if it can, and otherwise the machine waits, for ever if nothing comes (R108, log entry 18). -/
def stepEvent (s : State) : Host.Outcome State Fault Refusal :=
  match s.schedule with
  | [] => if canMove s then .next (turn { s with moment := s.moment + 1 }) else .next s
  | .turn :: rest => .next (turn { s with schedule := rest, moment := s.moment + 1 })
  | .ack :: rest => .next (acknowledge { s with schedule := rest, moment := s.moment + 1 })
  | .xfail :: rest => .next (xfail { s with schedule := rest, moment := s.moment + 1 })
  | .rst :: rest => .next ({ s with schedule := rest, moment := s.moment + 1 } : State).resetEvent
  | .request r :: rest =>
    match decode r with
    | .ok i => exec i { s with schedule := rest, moment := s.moment + 1 }
    | .error why => .refused (.noInstruction why)

/-- One step: a raise that is due is entered first (R97, log entry 5), and then the block takes what comes. -/
def step (s : State) : Host.Outcome State Fault Refusal := stepEvent s.takeRaise

/-- `n` steps, stopping at a fault or a refusal. -/
def stepN : Nat → State → Host.Outcome State Fault Refusal
  | 0, s => .next s
  | n + 1, s =>
    match step s with
    | .next t => stepN n t
    | .fault f => .fault f
    | .refused r => .refused r

/-- The state in which the next step runs the instruction of a bare word of opcode_table.json: the word stands at the head
of the schedule, at the port `tableOperation` takes it to belong to (log entries 1 and 2). -/
def State.withFetchWord (s : State) (nbits w : Nat) : State :=
  { s with schedule := .request (tableRequest nbits w) :: s.schedule }

end Sys2Proof.Machine
end

