-- ==== Sys2Proof/Machine/Flags.lean ====
section
/-! DEFINITION. The block has no flags and no condition codes (R16): no operation computes one. What takes their place is the
status the host can read at the ports (R14, R36). -/

namespace Sys2Proof.Machine

/-- The port `busy`: `seq.mode = BUSY` (R36). -/
def busyPort (s : State) : Bool := s.seq.mode == .busy

/-- The port `fault`: `seq.mode = FAULT` (R36). -/
def faultPort (s : State) : Bool := s.seq.mode == .fault

/-- The port `cause`: `seq.cause`, 2 bits (R36, R90). -/
def causePort (s : State) : BitVec 2 := s.seq.cause.code

/-- The port `cmd_valid`: `seq.pending` (R36). -/
def cmdValidPort (s : State) : Bool := s.seq.pending

end Sys2Proof.Machine
end

