-- ==== Sys2Proof/Safety.lean ====
section
/-! DEFINITION. What claims about runs are stated in: the end of a run (R112), the events the host may deliver (R100), the
schedules of an undisturbed pass (R80), and the invariant of the machine. -/

namespace Sys2Proof.Safety

open Sys2Proof.Machine

/-- The state is `FAULT`. -/
abbrev faulted (s : State) : Prop := s.seq.mode = .fault

/-- A run is over (R112): a pass has completed, or was refused or abandoned. That a pass has completed since reset shows in
`out`, which only `EMIT` extends (log entry 20). A state with a raise due is never final as a success (U1): it is over in
`FAULT` only. -/
abbrev runOver (s : State) : Prop :=
  (s.seq.mode = .idle ∧ s.seq.pending = false ∧ s.out ≠ [] ∧ s.due = none) ∨ s.seq.mode = .fault

/-- The rows of R100's table that are not "never": which events may happen in which state. A request that only answers is
always allowed (R99); one that starts a pass, or sends its own text, is allowed in `IDLE`. -/
def allowedRequest (s : State) (i : Instr) : Prop :=
  match i with
  | .lookup _ _ => True
  | .split _ => True
  | .mux _ _ _ _ => True
  | .plane _ _ => True
  | .join _ _ _ => True
  | .romaddr _ _ => True
  | .baseaddr _ _ => True
  | .logaddr _ _ _ => True
  | .romimage _ _ => True
  | .encode0 => s.seq.mode = .idle
  | .encode1 => s.seq.mode = .idle
  | .encode2 => s.seq.mode = .idle
  | .reservedChip3 => s.seq.mode = .idle
  | .fullpass => s.seq.mode = .idle
  | .wr _ _ => s.seq.mode = .idle

/-- The operations that read only their operands and the table, and write nothing (R13). -/
def combinational : Instr → Bool
  | .lookup _ _ => true
  | .split _ => true
  | .mux _ _ _ _ => true
  | .plane _ _ => true
  | .join _ _ _ => true
  | .romaddr _ _ => true
  | .baseaddr _ _ => true
  | .logaddr _ _ _ => true
  | .romimage _ _ => true
  | .encode0 => false
  | .encode1 => false
  | .encode2 => false
  | .reservedChip3 => false
  | .fullpass => false
  | .wr _ _ => false

/-- The events of an undisturbed pass: the sequencer's turn, then the acknowledgment, `n` times (R80). -/
def pairs (n : Nat) : List Event :=
  (List.replicate n [Event.turn, Event.ack]).flatten

/-- The address lies in chip `c`'s segment (R27). -/
abbrev inSegment (c : Chip) (a : Nat) : Prop :=
  c.val * 2 ^ 11 ≤ a ∧ a < c.val * 2 ^ 11 + 2 ^ 11

/-- `out` ends with the first `n` commands of `ENCODE(c, T)` (R80). -/
def outEndsWith (s : State) (c : Chip) (n : Nat) : Prop :=
  ∃ before, s.out = before ++ (encodeCmds Config.T c).take n

/-- `L` holds the planes of opcodes below `n` of chip `c` (R89, R98). -/
def holdsEntries (s : State) (c : Chip) (n : Nat) : Prop :=
  ∀ op : Opcode, op.toNat < n → ∀ st : Step,
    s.L.read? (logAddrOf c op st).toNat = some (planeByte c (Config.T op st))

/-- What a list of commands, acknowledged in order, leaves in `L` (R85). -/
def applyCmds (m : Memory) (ks : List Cmd) : Memory :=
  ks.foldl (fun m k => m.writeBytes k.addr k.bytes.toList) m

/-- Where the sequencer's fields agree with each other (R14, R90, R94). -/
structure fieldsAgree (s : State) : Prop where
  causeIffFault : s.seq.cause = .none ↔ s.seq.mode ≠ .fault
  chipWhileBusy : s.seq.mode = .busy → s.seq.chip.toNat < 3
  pendingNotIdle : s.seq.pending = true → s.seq.mode ≠ .idle
  recordIffInvalid : s.faultRecord.isSome = true ↔ s.seq.cause = .invalidChipIndex
  planLegal : ∀ c ∈ s.plan, c < 3
  recordRaised : ∀ c ∈ s.faultRecord, c ∈ s.raised
  dueRaised : ∀ c ∈ s.due, c ∈ s.raised
  raisedIllegal : ∀ c ∈ s.raised, 3 ≤ c

/-- Where a pass stands (R80, R98): while it runs, after a transport failure, and wherever a command is pending, `out` ends with
the commands emitted so far and `L` holds those acknowledged. -/
def passAgrees (s : State) : Prop :=
  (s.seq.mode = .busy ∨ s.seq.cause = .transportFailure ∨ s.seq.pending = true) →
    ∃ c : Chip, s.seq.chip.toNat = c.val ∧
      outEndsWith s c (s.seq.op.toNat + if s.seq.pending then 1 else 0) ∧ holdsEntries s c s.seq.op.toNat

/-- Every command emitted is one of `ENCODE` for some legal chip (R24, R71). -/
def outLegal (s : State) : Prop :=
  ∀ k ∈ s.out, ∃ (c : Chip) (op : Opcode), k = cmdOf Config.T c op

/-- The invariant every step keeps. -/
structure Inv (s : State) : Prop where
  memory : Memory.wf s.L
  fields : fieldsAgree s
  pass : passAgrees s
  outputs : outLegal s

end Sys2Proof.Safety
end

