-- ==== Sys2Proof/Certificates/Slice0/Obligations.lean ====
section
/-! DEFINITION. The statements for the provers. Each says which rule of the spec it formalises, or which log entry a clause
that is the model's own rests on. A statement about `Config.T` holds for every table: the constant is opaque. Where an
operation has a result, `answer` is the field in which the model shows it (log entry 4); `schedule` and `moment` are the
model's own (log entries 2 and 13). -/

open Sys2Proof Sys2Proof.Machine Sys2Proof.Safety

/-! ### Steps, words and reset -/

/-- A presented word that decodes to an instruction is run by the next step, after the event is taken off the schedule and after
a raise that is due, if there is one, is entered (`State.takeRaise`, log entry 5). -/
def Obligations.PresentedInstructionRuns : Prop :=
  ∀ (s : State) (r : Request) (rest : List Event) (i : Instr),
    s.schedule = .request r :: rest → decode r = .ok i →
      step s = exec i { s.takeRaise with schedule := rest, moment := s.moment + 1 }

/-- A bare table word placed by `withFetchWord` is what the next step runs (log entries 1, 2; a raise that is due is entered
first, log entry 5). -/
def Obligations.TableWordRunsNext : Prop :=
  ∀ (s : State) (nbits w : Nat) (i : Instr),
    decodeTableWord nbits w = some i → step (s.withFetchWord nbits w) = exec i { s.takeRaise with moment := s.moment + 1 }

/-- Words written out from the formats R33 to R37 decode to what they stand for. -/
def Obligations.FormatWordsDecode : Prop :=
  decode ⟨.lookup, 0b00010000011⟩ = .ok (.lookup 0x10 3) ∧
  decode ⟨.split, 0b101010111100110111101111⟩ = .ok (.split 0xABCDEF) ∧
  decode ⟨.mux, 0b01101010111100110111101111⟩ = .ok (.mux 1 0xEF 0xCD 0xAB) ∧
  decode ⟨.join, 0b101010111100110111101111⟩ = .ok (.join 0xAB 0xCD 0xEF) ∧
  decode ⟨.baseaddr, 0b0000100010000000⟩ = .ok (.baseaddr 1 0x10) ∧
  decode ⟨.logaddr, 0b0001010000000101⟩ = .ok (.logaddr 2 0x80 5) ∧
  decode ⟨.encode, 0b10⟩ = .ok .encode2 ∧
  decode ⟨.encode, 0b11⟩ = .ok .reservedChip3 ∧
  decode ⟨.wr, 0x088002105CA300000000⟩ = .ok (.wr 0x0880 #v[0x02, 0x10, 0x5C, 0xA3, 0, 0, 0, 0]) ∧
  decode ⟨.logaddr, 0b0010000000000000⟩ = .error (.fixedBits .logaddr)

/-- Reset leaves the values R20 states; `seq.chip` and `seq.op`, which it leaves unspecified, are not mentioned. -/
def Obligations.ResetLeavesStatedValues : Prop :=
  State.reset.seq.mode.code = 0 ∧ State.reset.seq.pending = false ∧ State.reset.seq.cause.code = 0 ∧
    State.reset.out = [] ∧ ∀ a, State.reset.L.read? a = none

/-- R102: the `rst` event, enabled in every state. `seq.chip` and `seq.op` become whatever they become. That the rest of the
schedule stays is the model's choice (log entry 24). -/
def Obligations.RstResetsEveryState : Prop :=
  ∀ (s : State) (rest : List Event), s.schedule = .rst :: rest →
    ∃ t, step s = .next t ∧ t.seq.mode = .idle ∧ t.seq.pending = false ∧ t.seq.cause = .none ∧ t.out = [] ∧
      (∀ a, t.L.read? a = none) ∧ t.schedule = rest

/-- For every instruction and every state there is a next state: no operation of the block is refused, and the spec's faults
are states (R94). Where the spec says there is no step or no fault of the block, the next state is the model's choice: a
request that is not enabled (R76, U8; log entry 3), an illegal chip index outside `IDLE` (log entry 5), `WR` outside `IDLE`
(log entry 8). -/
def Obligations.EveryInstructionAnswersNext : Prop :=
  ∀ (i : Instr) (s : State), ∃ t, exec i s = .next t

/-- A step never answers a host fault, and refuses only a word that is none of the operation's format (R33 to R37). That an
event which is not enabled, and a wait with nothing to do, are next states is the model's choice (log entries 3 and 18). -/
def Obligations.StepStopsOnlyOnMalformedWords : Prop :=
  ∀ s : State, (∀ f, step s ≠ .fault f) ∧
    ∀ why, step s = .refused why →
      ∃ r rest e, s.schedule = .request r :: rest ∧ decode r = .error e ∧ why = .noInstruction e

/-! ### The table -/

/-- R45: `LOOKUP` always succeeds, answers the table's word and has no side effect; for every admissible table its word at
step 0 is `MAI | PCO`. -/
def Obligations.LookupAnswersTableWord : Prop :=
  (∀ (op : Opcode) (st : Step) (s : State),
    exec (.lookup op st) s = .next { s with answer := some (.word (Config.T op st)) }) ∧
  ∀ (T : Table) (p : Config.Positions) (real : Opcode → Bool), admissibleWith T p real →
    ∀ op, lookupIn T op 0 = signalWord p.mai ||| signalWord p.pco

/-- R46, R47, R48, R50: which signals the words of an admissible table hold: the two fetch words of every entry, every word of
a default entry, every word of the halt entry. -/
def Obligations.AdmissibleTableSignals : Prop :=
  ∀ (T : Table) (p : Config.Positions) (real : Opcode → Bool), admissibleWith T p real → ∀ (op : Opcode) (k : Fin 24),
    ((T op 0).getLsbD k.val = decide (k = p.mai ∨ k = p.pco)) ∧
    ((T op 1).getLsbD k.val = decide (k = p.mo ∨ k = p.iri ∨ k = p.ce)) ∧
    (real op = false → (T op 2).getLsbD k.val = decide (k = p.rsc) ∧
      ∀ s : Step, 3 ≤ s.toNat → (T op s).getLsbD k.val = false) ∧
    ((T 0xFF 2).getLsbD k.val = decide (k = p.hlt)) ∧ ((T 0xFF 3).getLsbD k.val = decide (k = p.rsc)) ∧
    ∀ s : Step, 4 ≤ s.toNat → (T 0xFF s).getLsbD k.val = false

/-- R49 with R50: in an admissible table the closing step of the halt entry is step 3 and no other. -/
def Obligations.HaltEntryClosesAtStepThree : Prop :=
  ∀ (T : Table) (p : Config.Positions) (real : Opcode → Bool), admissibleWith T p real →
    ∀ m : Step, closesAt p (T 0xFF) m ↔ m = 3

/-! ### Projector and multiplexer -/

/-- R56: `SPLIT` is pure wiring: bit `j` of plane `c` is bit `8c + j` of the word, and nothing else changes. -/
def Obligations.SplitIsWiring : Prop :=
  ∀ (cw : CW) (s : State), ∃ p0 p1 p2 : Byte,
    exec (.split cw) s = .next { s with answer := some (.planes p0 p1 p2) } ∧
      ∀ j < 8, p0.getLsbD j = cw.getLsbD j ∧ p1.getLsbD j = cw.getLsbD (8 + j) ∧ p2.getLsbD j = cw.getLsbD (16 + j)

/-- R57 for the legal selectors: the selected plane and no other. The illegal ones: `IllegalChipIndexEntersFault`. -/
def Obligations.MuxPassesSelectedPlane : Prop :=
  ∀ (p0 p1 p2 : Byte) (s : State),
    exec (.mux 0 p0 p1 p2) s = .next { s with answer := some (.byte p0) } ∧
    exec (.mux 1 p0 p1 p2) s = .next { s with answer := some (.byte p1) } ∧
    exec (.mux 2 p0 p1 p2) s = .next { s with answer := some (.byte p2) }

/-- R58 for the legal indices: `PLANE` is shift and mask, and equally the multiplexer over the projector. -/
def Obligations.PlaneIsShiftAndMask : Prop :=
  ∀ (c : Chip) (cw : CW) (s : State), ∃ b : Byte,
    exec (.plane c.val cw) s = .next { s with answer := some (.byte b) } ∧
      b.toNat = cw.toNat / 2 ^ (8 * c.val) % 256 ∧
      b = muxByte c (splitWord cw).1 (splitWord cw).2.1 (splitWord cw).2.2

/-- R59: `JOIN`, plane 2 first, and both round trips. -/
def Obligations.JoinInvertsSplit : Prop :=
  (∀ (p2 p1 p0 : Byte) (s : State), ∃ cw : CW,
    exec (.join p2 p1 p0) s = .next { s with answer := some (.word cw) } ∧
      cw.toNat = p2.toNat * 65536 + p1.toNat * 256 + p0.toNat ∧ splitWord cw = (p0, p1, p2)) ∧
  ∀ cw : CW, joinWord (planeByte 2 cw) (planeByte 1 cw) (planeByte 0 cw) = cw

/-- R60: the byte of a chip depends only on the 8 signals of its plane; for chip 2 the mask removes nothing. -/
def Obligations.PlaneDependsOnItsSignalsOnly : Prop :=
  (∀ (c : Chip) (cw cw' : CW), (∀ j < 8, cw.getLsbD (8 * c.val + j) = cw'.getLsbD (8 * c.val + j)) →
    planeByte c cw = planeByte c cw') ∧
  ∀ cw : CW, (planeByte 2 cw).toNat = cw.toNat / 65536

/-- R6, R7: the signal at position `k` shows in the plane `k >> 3` at bit `k & 7`, and in no other plane. -/
def Obligations.SignalShowsInItsPlane : Prop :=
  ∀ (k : Fin 24) (c : Chip), planeByte c (signalWord k) = if c = signalPlane k then 1#8 <<< signalBit k else 0

/-- R61, R69, R91, R94: an operation used on its own with a chip index of 3 or more, in `IDLE`, has no result and enters the
fault: mode `FAULT`, cause 1, the index in the model's fault record and among the indices raised, everything else kept. Between
two requests of a full pass, which R96 lets nothing stop, it is recorded and due instead (the model's reading, log entry 5). -/
def Obligations.IllegalChipIndexEntersFault : Prop :=
  ∀ (s : State) (c : Nat), s.seq.mode = .idle → 3 ≤ c →
    let t : State :=
      if s.plan = [] then
        { s with seq := { s.seq with mode := .fault, cause := .invalidChipIndex }, faultRecord := some c,
                 raised := s.raised ++ [c], answer := none }
      else { s with raised := s.raised ++ [c], answer := none, due := s.due.or (some c) }
    (∀ p0 p1 p2, exec (.mux c p0 p1 p2) s = .next t) ∧ (∀ cw, exec (.plane c cw) s = .next t) ∧
    (∀ op, exec (.baseaddr c op) s = .next t) ∧ (∀ op st, exec (.logaddr c op st) s = .next t) ∧
    ∀ a, exec (.romimage c a) s = .next t

/-- R57, R61, R69, R95 to R97, U1: with an illegal chip index an operation has no result and the fault is recorded outside `IDLE`
as in it. While a pass runs the sequencer is left alone and the raise is due, the first one staying due; `IDLE` with a raise due
becomes `FAULT` before anything else is taken, with cause 1 and everything but the records as it was, unless a full pass has
requests still to make; in `FAULT` the first cause and record stay. That the entry waits for the end of the pass is the model's
reading (log entry 5). -/
def Obligations.IllegalChipIndexOutsideIdle : Prop :=
  (∀ (s : State) (c : Nat), 3 ≤ c →
    let u : State := { s with raised := s.raised ++ [c], answer := none, due := s.due.or (some c) }
    let v : State := { s with raised := s.raised ++ [c], answer := none }
    (s.seq.mode = .busy →
      (∀ p0 p1 p2, exec (.mux c p0 p1 p2) s = .next u) ∧ (∀ cw, exec (.plane c cw) s = .next u) ∧
      (∀ op, exec (.baseaddr c op) s = .next u) ∧ (∀ op st, exec (.logaddr c op st) s = .next u) ∧
      ∀ a, exec (.romimage c a) s = .next u) ∧
    (s.seq.mode = .fault →
      (∀ p0 p1 p2, exec (.mux c p0 p1 p2) s = .next v) ∧ (∀ cw, exec (.plane c cw) s = .next v) ∧
      (∀ op, exec (.baseaddr c op) s = .next v) ∧ (∀ op st, exec (.logaddr c op st) s = .next v) ∧
      ∀ a, exec (.romimage c a) s = .next v)) ∧
  ∀ (s : State) (c : Nat), s.seq.mode = .idle → s.due = some c →
    let w : State := { s with seq := { s.seq with mode := .fault, cause := .invalidChipIndex }, faultRecord := some c,
                              answer := none, due := none }
    (s.plan ≠ [] → s.takeRaise = s) ∧
    (s.plan = [] → s.takeRaise = w ∧ (s.schedule = [] → step s = .next w))

/-- R13, as a frame: a combinational operation, with legal operands or not, leaves the output stream, every byte of `L`, the
sequencer's position and the environment alone; and if it has a result it changes nothing but the answer. -/
def Obligations.CombinationalWritesNothing : Prop :=
  ∀ (i : Instr) (s t : State), combinational i = true → exec i s = .next t →
    t.out = s.out ∧ (∀ a, t.L.read? a = s.L.read? a) ∧ t.seq.chip = s.seq.chip ∧ t.seq.op = s.seq.op ∧
    t.seq.pending = s.seq.pending ∧ t.plan = s.plan ∧ t.schedule = s.schedule ∧ t.moment = s.moment ∧
    (t.answer.isSome = true → t.seq = s.seq ∧ t.faultRecord = s.faultRecord ∧ t.raised = s.raised ∧ t.due = s.due)

/-! ### The address combiner -/

/-- R63: `ROMADDR`, and that it takes every value exactly once (R68). -/
def Obligations.RomAddrCombinesOpcodeAndStep : Prop :=
  (∀ (op : Opcode) (st : Step) (s : State), ∃ a : RomAddr,
    exec (.romaddr op st) s = .next { s with answer := some (.romAddr a) } ∧ a.toNat = op.toNat * 8 + st.toNat) ∧
  ∀ a : RomAddr, ∃! p : Opcode × Step, romAddrOf p.1 p.2 = a

/-- R64 for the legal indices: `BASEADDR`. The illegal ones: `IllegalChipIndexEntersFault`. -/
def Obligations.BaseAddrPlacesChipAndOpcode : Prop :=
  ∀ (c : Chip) (op : Opcode) (s : State), ∃ a : LogAddr,
    exec (.baseaddr c.val op) s = .next { s with answer := some (.logAddr a) } ∧
      a.toNat = c.val * 2048 + op.toNat * 8

/-- R65, R66 for the legal indices: `LOGADDR`; plus and or agree; different operands have different addresses; the largest is
`0x17FF`. -/
def Obligations.LogAddrCombinesDisjointFields : Prop :=
  (∀ (c : Chip) (op : Opcode) (st : Step) (s : State), ∃ a : LogAddr,
    exec (.logaddr c.val op st) s = .next { s with answer := some (.logAddr a) } ∧
      a.toNat = c.val * 2048 + op.toNat * 8 + st.toNat ∧ a = baseAddrOf c op + st.setWidth 16 ∧
      a = (BitVec.ofNat 16 c.val <<< 11 ||| op.setWidth 16 <<< 3 ||| st.setWidth 16) ∧ a.toNat ≤ 0x17FF) ∧
  ∀ (c c' : Chip) (op op' : Opcode) (st st' : Step),
    logAddrOf c op st = logAddrOf c' op' st' → c = c' ∧ op = op' ∧ st = st'

/-- R67: an address up to `0x17FF` is read back into its fields, and the fields give the address; and an address inside a chip
likewise. -/
def Obligations.AddressFieldsReadBack : Prop :=
  (∀ a : LogAddr, a.toNat ≤ 0x17FF → ∃ c : Chip, (logChip a).toNat = c.val ∧ logAddrOf c (logOp a) (logStep a) = a ∧
    logRom a = romAddrOf (logOp a) (logStep a)) ∧
  ∀ (c : Chip) (op : Opcode) (st : Step), (logChip (logAddrOf c op st)).toNat = c.val ∧
    logOp (logAddrOf c op st) = op ∧ logStep (logAddrOf c op st) = st ∧
    logRom (logAddrOf c op st) = romAddrOf op st ∧
    romOp (romAddrOf op st) = op ∧ romStep (romAddrOf op st) = st

/-- R68: base addresses rise by 8, within a chip and from one chip to the next; the addresses of a pass and of a full pass are
strictly increasing. -/
def Obligations.BaseAddressesAscend : Prop :=
  (∀ (c : Chip) (op : Opcode), op ≠ 0xFF → (baseAddrOf c (op + 1)).toNat = (baseAddrOf c op).toNat + 8) ∧
  (baseAddrOf 0 0xFF).toNat + 8 = (baseAddrOf 1 0).toNat ∧ (baseAddrOf 1 0xFF).toNat + 8 = (baseAddrOf 2 0).toNat ∧
  (∀ (T : Table) (c : Chip), ((encodeCmds T c).map fun k => k.addr.toNat).Pairwise (· < ·)) ∧
  ∀ T : Table, ((fullPassCmds T).map fun k => k.addr.toNat).Pairwise (· < ·)

/-- R22, R24, R27, R28: a command's address is a multiple of 8, its 8 bytes lie inside its chip's segment and inside no other
chip's, and the three bytes of a control word stand `0x800` apart. -/
def Obligations.CommandsStayInTheirSegment : Prop :=
  ∀ (T : Table) (c : Chip) (op : Opcode),
    (cmdOf T c op).addr.toNat % 8 = 0 ∧
    (∀ i < 8, inSegment c ((cmdOf T c op).addr.toNat + i) ∧
      ∀ c' : Chip, c' ≠ c → ¬ inSegment c' ((cmdOf T c op).addr.toNat + i)) ∧
    ∀ st : Step, (logAddrOf 1 op st).toNat = (logAddrOf 0 op st).toNat + 0x800 ∧
      (logAddrOf 2 op st).toNat = (logAddrOf 0 op st).toNat + 0x1000

/-! ### The image and the pure functions -/

/-- R70 for the legal indices: `ROMIMAGE` at an address is the plane of the table's word there, and by opcode and step. -/
def Obligations.RomImageIsPlaneOfTable : Prop :=
  (∀ (c : Chip) (a : RomAddr) (s : State), ∃ b : Byte,
    exec (.romimage c.val a) s = .next { s with answer := some (.byte b) } ∧
      b = planeByte c (Config.T (BitVec.ofNat 8 (a.toNat / 8)) (BitVec.ofNat 3 a.toNat))) ∧
  ∀ (T : Table) (c : Chip) (op : Opcode) (st : Step), romImage T c (romAddrOf op st) = planeByte c (T op st)

/-- R71, R73, R74: `ENCODE` has a value exactly for the legal indices; it has 256 commands, command `n` carrying the base
address of opcode `n` and its plane bytes in step order. -/
def Obligations.EncodeListsEveryOpcode : Prop :=
  (∀ (T : Table) (c : Nat), (encodeFn? T c = none ↔ 3 ≤ c)) ∧
  ∀ (T : Table) (c : Chip), encodeFn? T c.val = some (encodeCmds T c) ∧ (encodeCmds T c).length = 256 ∧
    ∀ op : Opcode, ∃ k, (encodeCmds T c)[op.toNat]? = some k ∧ k.addr.toNat = c.val * 2048 + op.toNat * 8 ∧
      ∀ i : Fin 8, k.bytes[i].toNat = (T op (BitVec.ofNat 3 i.val)).toNat / 2 ^ (8 * c.val) % 256 ∧
        k.bytes[i] = romImage T c (romAddrOf op (BitVec.ofNat 3 i.val))

/-- R73: a pass covers each address of the chip's segment exactly once. -/
def Obligations.PassCoversSegmentOnce : Prop :=
  ∀ (T : Table) (c : Chip) (a : Nat), inSegment c a →
    ∃! p : Fin 256 × Fin 8, ∃ k, (encodeCmds T c)[p.1.val]? = some k ∧ k.addr.toNat + p.2.val = a

/-- R72 (its derived half), R28: reordering the commands of a pass, or of a full pass, leaves the same map. -/
def Obligations.ReorderingLeavesSameImage : Prop :=
  ∀ (T : Table) (m : Memory), m.wf →
    (∀ (c : Chip) (ks : List Cmd), ks.Perm (encodeCmds T c) → applyCmds m ks = applyCmds m (encodeCmds T c)) ∧
    ∀ ks : List Cmd, ks.Perm (fullPassCmds T) → applyCmds m ks = applyCmds m (fullPassCmds T)

/-- R26: writing the same command twice is writing it once. -/
def Obligations.RewritingIsIdempotent : Prop :=
  ∀ (m : Memory) (k : Cmd), m.wf → k.addr.toNat % 8 = 0 →
    (m.writeBytes k.addr k.bytes.toList).writeBytes k.addr k.bytes.toList = m.writeBytes k.addr k.bytes.toList

/-! ### The sequencer -/

/-- R76 in `IDLE`, legal indices: `START` sets the four fields and nothing else; nothing is emitted. -/
def Obligations.StartOpensPass : Prop :=
  ∀ s : State, s.seq.mode = .idle →
    exec .encode0 s = .next { s with seq := { mode := .busy, chip := 0, op := 0, pending := false, cause := s.seq.cause } } ∧
    exec .encode1 s = .next { s with seq := { mode := .busy, chip := 1, op := 0, pending := false, cause := s.seq.cause } } ∧
    exec .encode2 s = .next { s with seq := { mode := .busy, chip := 2, op := 0, pending := false, cause := s.seq.cause } }

/-- R91, R76, R94: the illegal request in `IDLE` enters `FAULT` with cause 1, and nothing is emitted or written. -/
def Obligations.ReservedRequestFaults : Prop :=
  ∀ s : State, s.seq.mode = .idle →
    exec .reservedChip3 s = .next
      { s with seq := { mode := .fault, chip := s.seq.chip, op := s.seq.op, pending := s.seq.pending,
                        cause := .invalidChipIndex }, faultRecord := some 3, raised := s.raised ++ [3], answer := none }

/-- R75: `FULLPASS` in `IDLE` makes the first of its three requests; the other two are planned, in place of what an earlier full
pass still had planned (log entry 7). -/
def Obligations.FullPassMakesFirstRequest : Prop :=
  ∀ s : State, s.seq.mode = .idle →
    exec .fullpass s = .next
      { s with seq := { mode := .busy, chip := 0, op := 0, pending := false, cause := s.seq.cause }, plan := [1, 2] }

/-- R76, R78, R93, R100 ("never" rows), U8: an event that is not enabled has no step: it is taken off the schedule and the block
is as it was (log entry 3), but for a raise that is due, which is entered first where no pass runs (log entry 5). -/
def Obligations.EventsNotEnabledChangeNothing : Prop :=
  ∀ (s : State) (rest : List Event),
    let t : State := { s.takeRaise with schedule := rest, moment := s.moment + 1 }
    (∀ i, (i = .encode0 ∨ i = .encode1 ∨ i = .encode2 ∨ i = .reservedChip3 ∨ i = .fullpass) → s.seq.mode ≠ .idle →
      s.schedule = .request (encode i) :: rest → step s = .next t) ∧
    (s.schedule = .ack :: rest → (s.seq.mode ≠ .busy ∨ s.seq.pending = false) → step s = .next t) ∧
    (s.schedule = .xfail :: rest → s.seq.mode ≠ .busy → step s = .next t) ∧
    (s.schedule = .turn :: rest → (s.seq.mode = .busy ∧ s.seq.pending = true ∨ s.seq.mode = .fault ∨
      s.seq.mode = .idle ∧ s.plan = []) → step s = .next t)

/-- R77: `EMIT`, as the block's own step: one command is appended, it becomes pending, and nothing else changes. -/
def Obligations.EmitAppendsOneCommand : Prop :=
  ∀ (s : State) (rest : List Event) (c : Chip),
    (s.schedule = .turn :: rest ∨ (s.schedule = [] ∧ rest = [])) → s.seq.mode = .busy → s.seq.pending = false →
    s.seq.chip.toNat = c.val →
    ∃ k : Cmd,
      step s = .next { s with schedule := rest, moment := s.moment + 1, out := s.out ++ [k],
                              seq := { s.seq with pending := true } } ∧
      k.addr.toNat = c.val * 2048 + s.seq.op.toNat * 8 ∧
      ∀ i : Fin 8, k.bytes[i].toNat = (Config.T s.seq.op (BitVec.ofNat 3 i.val)).toNat / 2 ^ (8 * c.val) % 256

/-- R78, R79, R85: `ACK` writes the 8 bytes of the presented command at its address and no other byte, clears pending, and
goes to the next opcode or, after 255, to `IDLE`; nothing else changes. -/
def Obligations.AckWritesAndAdvances : Prop :=
  ∀ (s : State) (rest : List Event) (c : Chip),
    s.schedule = .ack :: rest → s.seq.mode = .busy → s.seq.pending = true → s.seq.chip.toNat = c.val →
    ∃ m : Memory,
      step s = .next
        { s with schedule := rest, moment := s.moment + 1, L := m,
                 seq := { mode := if s.seq.op = 255 then .idle else .busy, chip := s.seq.chip,
                          op := if s.seq.op = 255 then 255 else s.seq.op + 1, pending := false, cause := s.seq.cause } } ∧
      (∀ i : Step, m.read? (c.val * 2048 + s.seq.op.toNat * 8 + i.toNat) = some (planeByte c (Config.T s.seq.op i))) ∧
      ∀ a, (a < c.val * 2048 + s.seq.op.toNat * 8 ∨ c.val * 2048 + s.seq.op.toNat * 8 + 8 ≤ a) →
        m.read? a = s.L.read? a

/-- R93, R94: `XFAIL` in `BUSY`, pending or not: mode `FAULT`, cause 2, the position, `out` and `L` kept; the chips may hold, at
each address of a command in flight, the old content or the new byte, and at every other address the old. -/
def Obligations.XfailEntersFault : Prop :=
  ∀ (s : State) (rest : List Event), s.schedule = .xfail :: rest → s.seq.mode = .busy →
    ∃ t, step s = .next t ∧
      t = { s with schedule := rest, moment := s.moment + 1, faultRecord := none, answer := none,
                   seq := { s.seq with mode := .fault, cause := .transportFailure } } ∧
      ∀ a : LogAddr, programmed? t a = s.L.read? a.toNat ∨
        ∃ (c : Chip) (st : Step), s.seq.pending = true ∧ s.seq.chip.toNat = c.val ∧ a = logAddrOf c s.seq.op st ∧
          programmed? t a = some (planeByte c (Config.T s.seq.op st))

/-- R85, R26, U7: whatever the free value is, while a command is in flight each of its 8 addresses holds its old content or the
new byte, and every other address its old content; with none in flight, every address. -/
def Obligations.InFlightBytesOldOrNew : Prop :=
  ∀ (s : State) (a : LogAddr), programmed? s a = s.L.read? a.toNat ∨
    ∃ (c : Chip) (st : Step), s.seq.pending = true ∧ s.seq.chip.toNat = c.val ∧ a = logAddrOf c s.seq.op st ∧
      programmed? s a = some (planeByte c (Config.T s.seq.op st))

/-- R95: `FAULT` is left only by reset, and no step but reset changes the cause or the record there. That none changes the output
or the map there is R94 for the sequencer's steps and, for a `WR` presented in `FAULT`, the model's choice (R85, log entry 8). -/
def Obligations.FaultLeftOnlyByReset : Prop :=
  ∀ s t : State, s.seq.mode = .fault → step s = .next t →
    (∃ rest, s.schedule = .rst :: rest ∧ t.seq.mode = .idle) ∨
    (t.seq = s.seq ∧ t.faultRecord = s.faultRecord ∧ t.out = s.out ∧ ∀ a, t.L.read? a = s.L.read? a)

/-- R96, R101, R108: a running pass ends only by the acknowledgment of opcode 255, by a transport failure or by reset. That a
request of the host leaves it, its output and the map alone rests on R76, R97 and R100 and on the model's choices where they
give no step: log entries 3 (`START`), 5 (an illegal chip index) and 8 (`WR`). -/
def Obligations.RunningPassNotDiverted : Prop :=
  ∀ s t : State, s.seq.mode = .busy → step s = .next t →
    (t.seq.mode ≠ .busy →
      (∃ rest, s.schedule = .ack :: rest ∧ s.seq.op = 255 ∧ s.seq.pending = true ∧ t.seq.mode = .idle) ∨
      (∃ rest, s.schedule = .xfail :: rest ∧ t.seq.mode = .fault ∧ t.seq.cause = .transportFailure) ∨
      ∃ rest, s.schedule = .rst :: rest) ∧
    ∀ r rest, s.schedule = .request r :: rest → t.seq = s.seq ∧ t.out = s.out ∧ ∀ a, t.L.read? a = s.L.read? a

/-- R15, R82: while a pass runs the opcode counter only stays or counts up by one, on an acknowledgment, and never past 255:
no operand, table word or event makes it skip, repeat or go back. -/
def Obligations.OpcodeCounterNeverSkips : Prop :=
  ∀ s t : State, s.seq.mode = .busy → step s = .next t → t.seq.mode = .busy →
    t.seq.chip = s.seq.chip ∧
    (t.seq.op = s.seq.op ∨
      (t.seq.op.toNat = s.seq.op.toNat + 1 ∧ s.seq.pending = true ∧ ∃ rest, s.schedule = .ack :: rest))

/-- R97: a step makes the cause `InvalidChipIndex` only in `IDLE`, when no pass runs, and `TransportFailure` only in `BUSY`. (What
is raised on its own while a pass runs is recorded then and becomes the cause in `IDLE`: log entry 5.) -/
def Obligations.FaultsComeFromTheirMode : Prop :=
  ∀ s t : State, step s = .next t → t.seq.cause ≠ s.seq.cause →
    (t.seq.cause = .invalidChipIndex → s.seq.mode = .idle) ∧ (t.seq.cause = .transportFailure → s.seq.mode = .busy)

/-- R108: with a command pending and nothing arriving, the machine stays as it is, for ever; and only `ack`, `xfail` or `rst`
moves the sequencer. -/
def Obligations.MissingAckBlocksForEver : Prop :=
  (∀ (s : State) (n : Nat), s.seq.mode = .busy → s.seq.pending = true → s.schedule = [] → stepN n s = .next s) ∧
  ∀ s t : State, s.seq.mode = .busy → s.seq.pending = true → step s = .next t → t.seq ≠ s.seq →
    ∃ rest, s.schedule = .ack :: rest ∨ s.schedule = .xfail :: rest ∨ s.schedule = .rst :: rest

/-- R80, R79: a pass begun in `IDLE`, no raise being due (log entry 5), in which the transport delivers 256 acknowledgments and
no failure ends in `IDLE` and has appended exactly `ENCODE(c, T)`, in its order. -/
def Obligations.CompletePassRefinesEncode : Prop :=
  ∀ (s : State) (c : Chip) (rest : List Event),
    s.seq.mode = .idle → s.due = none → s.schedule = .request ⟨.encode, c.val⟩ :: (pairs 256 ++ rest) →
    ∃ t, stepN 513 s = .next t ∧ t.out = s.out ++ encodeCmds Config.T c ∧ t.schedule = rest ∧
      t.seq = { mode := .idle, chip := BitVec.ofNat 2 c.val, op := 255, pending := false, cause := s.seq.cause }

/-- R80, second half: after `n < 256` acknowledgments the first `n` commands have been appended, and one more once the next is
emitted; no raise is due at its start (log entry 5). -/
def Obligations.PartialPassEmitsPrefix : Prop :=
  ∀ (s : State) (c : Chip) (n : Nat) (rest : List Event), n < 256 →
    s.seq.mode = .idle → s.due = none → s.schedule = .request ⟨.encode, c.val⟩ :: (pairs n ++ .turn :: rest) →
    (∃ t, stepN (1 + 2 * n) s = .next t ∧ t.seq.mode = .busy ∧ t.seq.op.toNat = n ∧ t.seq.pending = false ∧
      t.out = s.out ++ (encodeCmds Config.T c).take n) ∧
    ∃ t, stepN (1 + 2 * n + 1) s = .next t ∧ t.seq.mode = .busy ∧ t.seq.op.toNat = n ∧ t.seq.pending = true ∧
      t.out = s.out ++ (encodeCmds Config.T c).take (n + 1)

/-- R89: what a completed pass leaves, begun with no raise due (log entry 5): the chip's image in its segment, and every
address outside it as before. -/
def Obligations.CompletePassProgramsChip : Prop :=
  ∀ (s : State) (c : Chip) (rest : List Event),
    s.seq.mode = .idle → s.due = none → s.schedule = .request ⟨.encode, c.val⟩ :: (pairs 256 ++ rest) →
    ∃ t, stepN 513 s = .next t ∧
      (∀ (op : Opcode) (st : Step),
        t.L.read? (logAddrOf c op st).toNat = some (planeByte c (Config.T op st)) ∧
        t.L.read? (logAddrOf c op st).toNat = some (romImage Config.T c (romAddrOf op st))) ∧
      ∀ a, ¬ inSegment c a → t.L.read? a = s.L.read? a

/-- R75, R89: a completed full pass appends `FULLPASS(T)`, 768 commands, and the three chips together give back every control
word of the table; addresses above `0x17FF` are as before. No raise is due at its start (log entry 5); the plan, and the `turn`
in `IDLE` that makes its next request, are log entry 7. -/
def Obligations.FullPassReconstructsTable : Prop :=
  ∀ (s : State) (rest : List Event),
    s.seq.mode = .idle → s.due = none →
    s.schedule = .request ⟨.fullpass, 0⟩ :: (pairs 256 ++ .turn :: (pairs 256 ++ .turn :: (pairs 256 ++ rest))) →
    ∃ t, stepN 1539 s = .next t ∧ t.seq.mode = .idle ∧ t.seq.pending = false ∧ t.plan = [] ∧ t.schedule = rest ∧
      t.out = s.out ++ fullPassCmds Config.T ∧ (fullPassCmds Config.T).length = 768 ∧
      (∀ (op : Opcode) (st : Step), ∃ b2 b1 b0 : Byte,
        t.L.read? (logAddrOf 2 op st).toNat = some b2 ∧ t.L.read? (logAddrOf 1 op st).toNat = some b1 ∧
        t.L.read? (logAddrOf 0 op st).toNat = some b0 ∧ joinWord b2 b1 b0 = Config.T op st) ∧
      ∀ a, 0x1800 ≤ a → t.L.read? a = s.L.read? a

/-- R75, D17: if a constituent of a full pass ends in a fault the remaining ones are not started: nothing but reset leaves the
fault, and `out` and `L` stay, whatever else is scheduled (R94; that a `WR` presented in `FAULT` leaves `L` alone is the
model's choice, R85, log entry 8). -/
def Obligations.FaultEndsFullPass : Prop :=
  ∀ (s t : State) (n : Nat), s.seq.mode = .fault → (∀ e ∈ s.schedule, e ≠ .rst) → stepN n s = .next t →
    t.seq = s.seq ∧ t.out = s.out ∧ ∀ a, t.L.read? a = s.L.read? a

/-! ### The command -/

/-- R83, R38: the text: 33 characters and then the end-of-command bytes; letters, spaces, digits and terminator in their
places; and the sixteen digits of the upper case. -/
def Obligations.CommandTextLayout : Prop :=
  (∀ (upper : Bool) (eol : List Byte) (addr : LogAddr) (bytes : Vector Byte 8),
    let t := wrTextWith upper eol addr bytes
    t.length = 33 + eol.length ∧ t.drop 33 = eol ∧ t.take 3 = [0x57, 0x52, 0x20] ∧
    (∀ j < 4, t[3 + j]? = some (hexDigit upper (addr.extractLsb' (12 - 4 * j) 4))) ∧
    (∀ i : Fin 8, t[7 + 3 * i.val]? = some 0x20 ∧ t[8 + 3 * i.val]? = some (hexDigit upper (bytes[i].extractLsb' 4 4)) ∧
      t[9 + 3 * i.val]? = some (hexDigit upper (bytes[i].extractLsb' 0 4))) ∧
    t[31]? = some 0x20 ∧ t[32]? = some 0x21) ∧
  ∀ d : BitVec 4, "0123456789ABCDEF".toList[d.toNat]? = some (Char.ofNat (hexDigit true d).toNat)

/-- R84: a receiver recovers the command from its text, in either case of the digits; different commands have different
texts. That the text may still carry `CMD_EOL` is the model's choice (log entry 25). -/
def Obligations.CommandTextReadsBack : Prop :=
  (∀ (upper : Bool) (eol : List Byte) (k : Cmd), readText? (wrTextWith upper eol k.addr k.bytes) = some k) ∧
  ∀ (upper : Bool) (eol : List Byte) (k k' : Cmd),
    wrTextWith upper eol k.addr k.bytes = wrTextWith upper eol k'.addr k'.bytes → k = k'

/-- R83, R85: `WR` on its own in `IDLE`, at a command's address: the text is answered, the 8 bytes stand at `addr` to
`addr + 7`, every other byte of `L` reads as before, and nothing else changes. That the exchange is one step in `IDLE` is the
model's (log entry 8), and so is that an address with chip field 3 is written where R85 says (log entry 9). -/
def Obligations.WrWritesItsEightBytes : Prop :=
  ∀ (s : State) (addr : LogAddr) (bytes : Vector Byte 8), s.seq.mode = .idle → (Instr.wr addr bytes).wellFormed = true →
    ∃ m : Memory,
      exec (.wr addr bytes) s = .next
        { s with answer := some (.text (wrTextWith Config.hexUpper Config.cmdEol addr bytes)), L := m } ∧
      (∀ i : Fin 8, m.read? (addr.toNat + i.val) = some bytes[i]) ∧
      ∀ a, (a < addr.toNat ∨ addr.toNat + 8 ≤ a) → m.read? a = s.L.read? a

/-- R83, and the model's log entry 8: outside `IDLE` `WR` on its own answers its text and changes nothing else. -/
def Obligations.WrOutsideIdleOnlyAnswers : Prop :=
  ∀ (s : State) (addr : LogAddr) (bytes : Vector Byte 8), s.seq.mode ≠ .idle →
    exec (.wr addr bytes) s = .next
      { s with answer := some (.text (wrTextWith Config.hexUpper Config.cmdEol addr bytes)) }

/-- R36, R37, R77, C12: the command `EMIT` appends is the one presented at `cmd_addr` and `cmd_data`, and it is held there until
it is no longer pending; with nothing pending no command is presented; the table is read at the eight addresses of the opcode;
and the two numberings of a command's bytes: `bytes[i]` is `cmd_data[8i+7 : 8i]`, and stands at bits `63-8i : 56-8i` of the
record. -/
def Obligations.CommandByteNumberings : Prop :=
  (∀ (s : State) (c : Chip), s.seq.mode = .busy → s.seq.pending = false → s.seq.chip.toNat = c.val →
    ∃ k : Cmd, (emit s).out = s.out ++ [k] ∧ (emit s).seq.pending = true ∧
      cmdAddrPort? (emit s) = some k.addr ∧ cmdDataPort? (emit s) = some (cmdData k.bytes) ∧
      k.addr.toNat = c.val * 2048 + s.seq.op.toNat * 8 ∧
      ∀ i : Fin 8, k.bytes[i].toNat = (Config.T s.seq.op (BitVec.ofNat 3 i.val)).toNat / 2 ^ (8 * c.val) % 256) ∧
  (∀ (s : State) (c : Chip), s.seq.pending = true → s.seq.chip.toNat = c.val →
    cmdAddrPort? s = some (baseAddrOf c s.seq.op) ∧ cmdDataPort? s = some (cmdData (cmdOf Config.T c s.seq.op).bytes)) ∧
  (∀ s t : State, s.seq.pending = true → step s = .next t → t.seq.pending = true →
    cmdAddrPort? t = cmdAddrPort? s ∧ cmdDataPort? t = cmdDataPort? s) ∧
  (∀ s : State, s.seq.pending = false → cmdAddrPort? s = none ∧ cmdDataPort? s = none) ∧
  (∀ (s : State) (n : Nat), n < 8 → ∃ a, (tableReads s)[n]? = some a ∧ a.toNat = s.seq.op.toNat * 8 + n) ∧
  ∀ (b : Vector Byte 8) (i : Fin 8),
    (cmdData b).extractLsb' (8 * i.val) 8 = b[i] ∧ packBytes b / 2 ^ (56 - 8 * i.val) % 256 = b[i].toNat

/-- R36, R14, R90: the modes and the causes have the codes the spec gives them, each its own and never 3, and the status ports
show the mode, the pending flag and the cause by them. -/
def Obligations.StatusPortsShowSequencer : Prop :=
  ∀ s : State,
    ((s.seq.mode.code = 0 ↔ s.seq.mode = .idle) ∧ (s.seq.mode.code = 1 ↔ s.seq.mode = .busy) ∧
      (s.seq.mode.code = 2 ↔ s.seq.mode = .fault) ∧ s.seq.mode.code ≠ 3) ∧
    (busyPort s = true ↔ s.seq.mode.code = 1) ∧ (faultPort s = true ↔ s.seq.mode.code = 2) ∧
    (cmdValidPort s = true ↔ s.seq.pending = true) ∧
    (causePort s = 0 ↔ s.seq.cause = .none) ∧ (causePort s = 1 ↔ s.seq.cause = .invalidChipIndex) ∧
    (causePort s = 2 ↔ s.seq.cause = .transportFailure) ∧ causePort s ≠ 3

/-! ### Encodings -/

/-- Every well-formed instruction is read back from its word, with every operand. -/
def Obligations.DecodeOfEncode : Prop :=
  ∀ i : Instr, i.wellFormed = true → decode (encode i) = .ok i

/-- Every word that decodes is the word of a well-formed instruction: at its operation's port a word has one meaning. -/
def Obligations.EncodeOfDecode : Prop :=
  ∀ (r : Request) (i : Instr), decode r = .ok i → i.wellFormed = true ∧ encode i = r

/-! ### Invariants -/

/-- The invariant holds at reset. -/
def Obligations.InvariantAtReset : Prop := Inv State.reset

/-- Every step keeps the invariant: `L` in its canonical form, the fields in agreement, every emitted command one of `ENCODE`,
and during a pass, and where one was left by a fault, `out` and `L` exactly as far as the acknowledgments say (R80, R89, R98). The
fault record, the indices raised and the raise that is due are the model's (log entries 5 and 19). -/
def Obligations.StepKeepsInvariant : Prop :=
  ∀ s t : State, Inv s → step s = .next t → Inv t

/-- R98: after a transport failure `out` and `L` are as before it, `L` holds the entries acknowledged, and `out` ends with them and
the one command that may be in flight. -/
def Obligations.TransportFailureAftermath : Prop :=
  ∀ (s t : State) (rest : List Event), Inv s → s.seq.mode = .busy → s.schedule = .xfail :: rest → step s = .next t →
    t.out = s.out ∧ (∀ a, t.L.read? a = s.L.read? a) ∧
    ∃ c : Chip, t.seq.chip.toNat = c.val ∧ holdsEntries t c t.seq.op.toNat ∧
      outEndsWith t c (t.seq.op.toNat + if t.seq.pending then 1 else 0)

/-- R112: `BUSY` is never final, and a step from a final state emits nothing: `out` changes only by reset. A raise that is due
makes `IDLE` no final state (U1, log entry 5). -/
def Obligations.FinalStatesEmitNothing : Prop :=
  (∀ s : State, s.seq.mode = .busy → ¬ runOver s) ∧
  ∀ s t : State, runOver s → step s = .next t → t.out = s.out ∨ ∃ rest, s.schedule = .rst :: rest
end

