-- ==== Sys2Proof/Laws/Memory.lean ====
section
/-! SUPPORT. The map `L` (R19, R85): a read after a write, and the canonical form, which every memory operation keeps. -/

namespace Sys2Proof.Machine

@[simp] theorem Memory.read?_nil (a : Nat) : Memory.read? [] a = none := rfl

theorem Memory.read?_write_same (m : Memory) (a : Nat) (b : Byte) : (m.write a b).read? a = some b := by
  induction m with
  | nil => simp [Memory.write, Memory.read?]
  | cons x rest ih =>
    obtain ⟨a', b'⟩ := x
    simp only [Memory.write]
    split
    · simp [Memory.read?]
    · split
      · simp [Memory.read?]
      · next h => simp [Memory.read?, h, ih]

theorem Memory.read?_write_other (m : Memory) (a a₁ : Nat) (b : Byte) (h : a₁ ≠ a) :
    (m.write a b).read? a₁ = m.read? a₁ := by
  induction m with
  | nil => simp [Memory.write, Memory.read?, h]
  | cons x rest ih =>
    obtain ⟨a', b'⟩ := x
    simp only [Memory.write]
    split
    · simp [Memory.read?, h]
    · split
      · next h₁ => subst h₁; simp [Memory.read?, h]
      · simp [Memory.read?, ih]

theorem Memory.read?_write (m : Memory) (a a₁ : Nat) (b : Byte) :
    (m.write a b).read? a₁ = if a₁ = a then some b else m.read? a₁ := by
  split
  · next h => subst h; exact m.read?_write_same a₁ b
  · next h => exact m.read?_write_other a a₁ b h

/-- A cell of a map after a write is the new one or an old one. -/
theorem Memory.mem_write (m : Memory) (a : Nat) (b : Byte) (x : Host.Cell) (h : x ∈ m.write a b) :
    x = (a, b) ∨ x ∈ m := by
  induction m with
  | nil => simpa [Memory.write] using h
  | cons y rest ih =>
    obtain ⟨a', b'⟩ := y
    simp only [Memory.write] at h
    split at h
    · simpa using h
    · split at h
      · rcases List.mem_cons.mp h with h | h
        · exact .inl h
        · exact .inr (List.mem_cons_of_mem _ h)
      · rcases List.mem_cons.mp h with h | h
        · exact .inr (h ▸ List.mem_cons_self)
        · exact (ih h).imp id (List.mem_cons_of_mem _)

theorem Memory.pairwise_write (m : Memory) (a : Nat) (b : Byte)
    (h : (m.map Prod.fst).Pairwise (· < ·)) : ((m.write a b).map Prod.fst).Pairwise (· < ·) := by
  induction m with
  | nil => simp [Memory.write]
  | cons y rest ih =>
    obtain ⟨a', b'⟩ := y
    simp only [List.map_cons, List.pairwise_cons] at h
    simp only [Memory.write]
    split
    · next hlt =>
      simp only [List.map_cons, List.pairwise_cons, List.mem_cons]
      refine ⟨?_, h⟩
      rintro x (rfl | hx)
      · exact hlt
      · exact Nat.lt_trans hlt (h.1 x hx)
    · split
      · next heq => subst heq; simpa using h
      · next hge hne =>
        simp only [List.map_cons, List.pairwise_cons]
        refine ⟨?_, ih h.2⟩
        intro x hx
        obtain ⟨z, hz, rfl⟩ := List.mem_map.mp hx
        rcases Memory.mem_write rest a b z hz with rfl | hz
        · exact Nat.lt_of_le_of_ne (Nat.le_of_not_lt hge) (Ne.symm hne)
        · exact h.1 _ (List.mem_map_of_mem hz)

theorem Memory.wf_nil : Memory.wf [] := by decide

/-- A write inside the 16-bit field keeps the canonical form. -/
theorem Memory.wf_write (m : Memory) (a : Nat) (b : Byte) (ha : a < 2 ^ 16) (h : m.wf) : (m.write a b).wf := by
  refine ⟨m.pairwise_write a b h.1, fun x hx => ?_⟩
  rcases m.mem_write a b x hx with rfl | hx
  · exact ha
  · exact h.2 x hx

/-- The effect of a command keeps the canonical form. -/
theorem Memory.wf_writeBytes (m : Memory) (a : LogAddr) (bs : List Byte) (h : m.wf) : (m.writeBytes a bs).wf := by
  induction bs generalizing m a with
  | nil => exact h
  | cons b bs ih => exact ih _ _ (m.wf_write _ b a.isLt h)

/-- The effect of a command, read at any address: byte `i` at `addr + i`, and every other address as before. The addresses
stay inside the 16-bit field (`R24`, `R85`). -/
theorem Memory.read?_writeBytes (m : Memory) (a : LogAddr) (bs : List Byte) (n : Nat)
    (h : a.toNat + bs.length ≤ 2 ^ 16) :
    (m.writeBytes a bs).read? n =
      if a.toNat ≤ n ∧ n < a.toNat + bs.length then bs[n - a.toNat]? else m.read? n := by
  induction bs generalizing m a with
  | nil =>
    rw [if_neg (by simp only [List.length_nil]; omega)]
    rfl
  | cons b bs ih =>
    simp only [List.length_cons] at h
    simp only [Memory.writeBytes]
    by_cases hz : bs = []
    · subst hz
      simp only [Memory.writeBytes, Memory.read?_write, List.length_cons, List.length_nil]
      by_cases hn : n = a.toNat
      · subst hn; simp
      · rw [if_neg hn, if_neg (by omega)]
    have hpos : 0 < bs.length := List.length_pos_iff.mpr hz
    have ha : (a + 1).toNat = a.toNat + 1 := by
      rw [BitVec.toNat_add, show (1 : LogAddr).toNat = 1 from rfl]; omega
    rw [ih _ _ (by omega), ha, Memory.read?_write]
    by_cases hn : n = a.toNat
    · subst hn
      rw [if_neg (by omega), if_pos rfl, if_pos (by simp)]
      simp
    · by_cases hin : a.toNat + 1 ≤ n ∧ n < a.toNat + 1 + bs.length
      · rw [if_pos hin, if_pos (by simp only [List.length_cons]; omega)]
        have : n - a.toNat = (n - (a.toNat + 1)) + 1 := by omega
        rw [this, List.getElem?_cons_succ]
      · rw [if_neg hin, if_neg hn, if_neg (by simp only [List.length_cons]; omega)]

/-- Two maps in canonical form that read the same are the same. -/
theorem Memory.ext_of_read (m m' : Memory) (h : m.wf) (h' : m'.wf) (hr : ∀ a, m.read? a = m'.read? a) : m = m' := by
  have low : ∀ (r : Memory) (a : Nat), (∀ x ∈ r.map Prod.fst, a < x) → r.read? a = none := by
    intro r a hx
    induction r with
    | nil => rfl
    | cons y r ih =>
      simp only [List.map_cons, List.mem_cons, forall_eq_or_imp] at hx
      have hne : a ≠ y.1 := by omega
      simp [Memory.read?, hne, ih hx.2]
  obtain ⟨h, -⟩ := h
  obtain ⟨h', -⟩ := h'
  induction m generalizing m' with
  | nil =>
    cases m' with
    | nil => rfl
    | cons y r => have := hr y.1; simp [Memory.read?] at this
  | cons x r ih =>
    cases m' with
    | nil => have := hr x.1; simp [Memory.read?] at this
    | cons y r' =>
      simp only [List.map_cons, List.pairwise_cons] at h h'
      have hxy : x.1 = y.1 := by
        rcases Nat.lt_trichotomy x.1 y.1 with hlt | heq | hlt
        · have := hr x.1
          rw [show Memory.read? (y :: r') x.1 = none from low _ _ (by
            simp only [List.map_cons, List.mem_cons, forall_eq_or_imp]
            exact ⟨hlt, fun z hz => Nat.lt_trans hlt (h'.1 z hz)⟩)] at this
          simp [Memory.read?] at this
        · exact heq
        · have := hr y.1
          rw [show Memory.read? (x :: r) y.1 = none from low _ _ (by
            simp only [List.map_cons, List.mem_cons, forall_eq_or_imp]
            exact ⟨hlt, fun z hz => Nat.lt_trans hlt (h.1 z hz)⟩)] at this
          simp [Memory.read?] at this
      have hb : x.2 = y.2 := by
        have := hr x.1
        simpa [Memory.read?, hxy] using this
      rw [show x = y from Prod.ext hxy hb]
      congr 1
      refine ih _ (fun a => ?_) h.2 h'.2
      by_cases ha : a = x.1
      · rw [low r a (ha ▸ h.1), low r' a (ha ▸ hxy ▸ h'.1)]
      · have := hr a
        simpa [Memory.read?, ha, hxy ▸ ha] using this

end Sys2Proof.Machine
end

