-- ==== Sys2Proof/Laws/Operands.lean ====
section
/-! SUPPORT. The assembled operands as numbers (R39, R62, R66): every later proof about an address or a plane is arithmetic
over these. -/

namespace Sys2Proof.Machine

theorem chipOf?_of_lt (c : Nat) (h : c < 3) : chipOf? c = some ⟨c, h⟩ := dif_pos h

theorem chipOf?_of_ge (c : Nat) (h : 3 ≤ c) : chipOf? c = none := dif_neg (by omega)

@[simp] theorem chipOf?_val (c : Chip) : chipOf? c.val = some c := chipOf?_of_lt c.val c.isLt

/-- Setting the low `k` bits below a shifted value adds them (R66). -/
theorem shift_or_eq_add (a b k : Nat) (h : b < 2 ^ k) : a <<< k ||| b = a * 2 ^ k + b := by
  rw [← Nat.shiftLeft_add_eq_or_of_lt h, Nat.shiftLeft_eq]

theorem romAddrOf_toNat (op : Opcode) (s : Step) : (romAddrOf op s).toNat = op.toNat * 8 + s.toNat := by
  have ho := op.isLt
  have hs := s.isLt
  simp only [romAddrOf, BitVec.toNat_or, BitVec.toNat_shiftLeft, BitVec.toNat_setWidth]
  rw [Nat.mod_eq_of_lt (a := op.toNat) (by omega), Nat.mod_eq_of_lt (a := s.toNat) (by omega), Nat.shiftLeft_eq,
    Nat.mod_eq_of_lt (by omega), ← Nat.shiftLeft_eq, shift_or_eq_add _ _ _ (by omega), Nat.shiftLeft_eq]

theorem baseAddrOf_toNat (c : Chip) (op : Opcode) : (baseAddrOf c op).toNat = c.val * 2048 + op.toNat * 8 := by
  have ho := op.isLt
  have hc := c.isLt
  simp only [baseAddrOf, BitVec.toNat_add, BitVec.toNat_shiftLeft, BitVec.toNat_setWidth, BitVec.toNat_ofNat,
    Nat.shiftLeft_eq]
  omega

theorem logAddrOf_toNat (c : Chip) (op : Opcode) (s : Step) :
    (logAddrOf c op s).toNat = c.val * 2048 + op.toNat * 8 + s.toNat := by
  have ho := op.isLt
  have hc := c.isLt
  have hs := s.isLt
  simp only [logAddrOf, BitVec.toNat_add, baseAddrOf_toNat, BitVec.toNat_setWidth]
  omega

theorem planeByte_toNat (c : Chip) (cw : CW) : (planeByte c cw).toNat = cw.toNat / 2 ^ (8 * c.val) % 256 := by
  simp only [planeByte, BitVec.toNat_setWidth, BitVec.toNat_and, BitVec.toNat_ushiftRight, BitVec.toNat_ofNat]
  rw [show 255 % 2 ^ 24 = 2 ^ 8 - 1 from rfl, Nat.and_two_pow_sub_one_eq_mod, Nat.shiftRight_eq_div_pow,
    Nat.mul_comm c.val 8]
  omega

theorem joinWord_toNat (p2 p1 p0 : Byte) :
    (joinWord p2 p1 p0).toNat = p2.toNat * 65536 + p1.toNat * 256 + p0.toNat := by
  have h2 := p2.isLt
  have h1 := p1.isLt
  have h0 := p0.isLt
  simp only [joinWord, BitVec.toNat_or, BitVec.toNat_shiftLeft, BitVec.toNat_setWidth]
  rw [Nat.mod_eq_of_lt (a := p2.toNat) (by omega), Nat.mod_eq_of_lt (a := p1.toNat) (by omega),
    Nat.mod_eq_of_lt (a := p0.toNat) (by omega), Nat.shiftLeft_eq, Nat.mod_eq_of_lt (by omega), Nat.shiftLeft_eq,
    Nat.mod_eq_of_lt (by omega), Nat.or_assoc, ← Nat.shiftLeft_eq p1.toNat, shift_or_eq_add p1.toNat _ _ (by omega),
    ← Nat.shiftLeft_eq p2.toNat, shift_or_eq_add _ _ _ (by omega)]
  omega

theorem splitWord_toNat (cw : CW) :
    (splitWord cw).1.toNat = cw.toNat % 256 ∧ (splitWord cw).2.1.toNat = cw.toNat / 256 % 256 ∧
      (splitWord cw).2.2.toNat = cw.toNat / 65536 % 256 := by
  simp [splitWord, BitVec.extractLsb'_toNat, Nat.shiftRight_eq_div_pow]

theorem romOp_romAddrOf (op : Opcode) (s : Step) : romOp (romAddrOf op s) = op := by
  apply BitVec.eq_of_toNat_eq
  have ho := op.isLt
  have hs := s.isLt
  simp only [romOp, BitVec.extractLsb'_toNat, romAddrOf_toNat, Nat.shiftRight_eq_div_pow]
  omega

theorem romStep_romAddrOf (op : Opcode) (s : Step) : romStep (romAddrOf op s) = s := by
  apply BitVec.eq_of_toNat_eq
  have hs := s.isLt
  simp only [romStep, BitVec.extractLsb'_toNat, romAddrOf_toNat, Nat.shiftRight_eq_div_pow]
  omega

@[simp] theorem cmdOf_addr (T : Table) (c : Chip) (op : Opcode) : (cmdOf T c op).addr = baseAddrOf c op := rfl

theorem cmdOf_bytes_length (T : Table) (c : Chip) (op : Opcode) : (cmdOf T c op).bytes.toList.length = 8 := by simp

theorem cmdOf_bytes_get (T : Table) (c : Chip) (op : Opcode) (s : Step) :
    (cmdOf T c op).bytes.toList[s.toNat]? = some (planeByte c (T op s)) := by
  have hs := s.isLt
  rw [List.getElem?_eq_getElem (by simpa using hs)]
  simp [cmdOf]

theorem encodeCmds_length (T : Table) (c : Chip) : (encodeCmds T c).length = 256 := by
  simp [encodeCmds, Config.nOpcodes]

theorem encodeCmds_get (T : Table) (c : Chip) (n : Nat) (h : n < 256) :
    (encodeCmds T c)[n]? = some (cmdOf T c (BitVec.ofNat 8 n)) := by
  simp [encodeCmds, Config.nOpcodes, h]

/-- The first `n + 1` commands are the first `n` and the next one (R72). -/
theorem encodeCmds_take_succ (T : Table) (c : Chip) (op : Opcode) :
    (encodeCmds T c).take (op.toNat + 1) = (encodeCmds T c).take op.toNat ++ [cmdOf T c op] := by
  have h : op.toNat < 256 := op.isLt
  rw [List.take_add_one, encodeCmds_get T c _ h]
  simp

end Sys2Proof.Machine
end

