-- ==== Sys2Proof/Laws/State.lean ====
section
/-! SUPPORT. One lemma per field for every named update of the state, so that no proof unfolds a record update. -/

namespace Sys2Proof.Machine

@[simp] theorem State.answerWith_seq (s : State) (a : Answer) : (s.answerWith a).seq = s.seq := rfl
@[simp] theorem State.answerWith_out (s : State) (a : Answer) : (s.answerWith a).out = s.out := rfl
@[simp] theorem State.answerWith_L (s : State) (a : Answer) : (s.answerWith a).L = s.L := rfl
@[simp] theorem State.answerWith_faultRecord (s : State) (a : Answer) : (s.answerWith a).faultRecord = s.faultRecord := rfl
@[simp] theorem State.answerWith_raised (s : State) (a : Answer) : (s.answerWith a).raised = s.raised := rfl
@[simp] theorem State.answerWith_due (s : State) (a : Answer) : (s.answerWith a).due = s.due := rfl
@[simp] theorem State.answerWith_answer (s : State) (a : Answer) : (s.answerWith a).answer = some a := rfl
@[simp] theorem State.answerWith_plan (s : State) (a : Answer) : (s.answerWith a).plan = s.plan := rfl
@[simp] theorem State.answerWith_schedule (s : State) (a : Answer) : (s.answerWith a).schedule = s.schedule := rfl
@[simp] theorem State.answerWith_moment (s : State) (a : Answer) : (s.answerWith a).moment = s.moment := rfl

@[simp] theorem State.enterFault_seq (s : State) (c : Cause) (r : Option Nat) :
    (s.enterFault c r).seq = { s.seq with mode := .fault, cause := c } := rfl
@[simp] theorem State.enterFault_out (s : State) (c : Cause) (r : Option Nat) : (s.enterFault c r).out = s.out := rfl
@[simp] theorem State.enterFault_L (s : State) (c : Cause) (r : Option Nat) : (s.enterFault c r).L = s.L := rfl
@[simp] theorem State.enterFault_faultRecord (s : State) (c : Cause) (r : Option Nat) : (s.enterFault c r).faultRecord = r := rfl
@[simp] theorem State.enterFault_raised (s : State) (c : Cause) (r : Option Nat) : (s.enterFault c r).raised = s.raised := rfl
@[simp] theorem State.enterFault_due (s : State) (c : Cause) (r : Option Nat) : (s.enterFault c r).due = s.due := rfl
@[simp] theorem State.enterFault_answer (s : State) (c : Cause) (r : Option Nat) : (s.enterFault c r).answer = none := rfl
@[simp] theorem State.enterFault_plan (s : State) (c : Cause) (r : Option Nat) : (s.enterFault c r).plan = s.plan := rfl
@[simp] theorem State.enterFault_schedule (s : State) (c : Cause) (r : Option Nat) : (s.enterFault c r).schedule = s.schedule := rfl
@[simp] theorem State.enterFault_moment (s : State) (c : Cause) (r : Option Nat) : (s.enterFault c r).moment = s.moment := rfl

@[simp] theorem State.recordInvalidChip_seq (s : State) (c : Nat) : (s.recordInvalidChip c).seq = s.seq := rfl
@[simp] theorem State.recordInvalidChip_out (s : State) (c : Nat) : (s.recordInvalidChip c).out = s.out := rfl
@[simp] theorem State.recordInvalidChip_L (s : State) (c : Nat) : (s.recordInvalidChip c).L = s.L := rfl
@[simp] theorem State.recordInvalidChip_faultRecord (s : State) (c : Nat) : (s.recordInvalidChip c).faultRecord = s.faultRecord := rfl
@[simp] theorem State.recordInvalidChip_raised (s : State) (c : Nat) : (s.recordInvalidChip c).raised = s.raised ++ [c] := rfl
@[simp] theorem State.recordInvalidChip_due (s : State) (c : Nat) : (s.recordInvalidChip c).due = s.due := rfl
@[simp] theorem State.recordInvalidChip_answer (s : State) (c : Nat) : (s.recordInvalidChip c).answer = none := rfl
@[simp] theorem State.recordInvalidChip_plan (s : State) (c : Nat) : (s.recordInvalidChip c).plan = s.plan := rfl
@[simp] theorem State.recordInvalidChip_schedule (s : State) (c : Nat) : (s.recordInvalidChip c).schedule = s.schedule := rfl
@[simp] theorem State.recordInvalidChip_moment (s : State) (c : Nat) : (s.recordInvalidChip c).moment = s.moment := rfl

/-- Entering a raise that is due is fault entry in `IDLE`, and nothing else (log entry 5). -/
theorem State.takeRaise_cases (s : State) :
    s.takeRaise = s ∧ (s.seq.mode ≠ .idle ∨ s.plan ≠ [] ∨ s.due = none) ∨
    ∃ c, s.seq.mode = .idle ∧ s.plan = [] ∧ s.due = some c ∧
      s.takeRaise = { s.enterFault .invalidChipIndex (some c) with due := none } := by
  unfold State.takeRaise
  cases hm : s.seq.mode <;> cases hp : s.plan <;> cases hd : s.due <;> simp

theorem State.takeRaise_of_notIdle (s : State) (h : s.seq.mode ≠ .idle) : s.takeRaise = s := by
  rcases s.takeRaise_cases with e | ⟨c, hm, -⟩
  · exact e.1
  · exact absurd hm h

theorem State.takeRaise_of_none (s : State) (h : s.due = none) : s.takeRaise = s := by
  rcases s.takeRaise_cases with e | ⟨c, -, -, hd, -⟩
  · exact e.1
  · rw [h] at hd
    cases hd

@[simp] theorem State.takeRaise_out (s : State) : s.takeRaise.out = s.out := by
  rcases s.takeRaise_cases with e | ⟨c, -, -, -, e⟩
  · rw [e.1]
  · rw [e]
    rfl
@[simp] theorem State.takeRaise_L (s : State) : s.takeRaise.L = s.L := by
  rcases s.takeRaise_cases with e | ⟨c, -, -, -, e⟩
  · rw [e.1]
  · rw [e]
    rfl
@[simp] theorem State.takeRaise_raised (s : State) : s.takeRaise.raised = s.raised := by
  rcases s.takeRaise_cases with e | ⟨c, -, -, -, e⟩
  · rw [e.1]
  · rw [e]
    rfl
@[simp] theorem State.takeRaise_plan (s : State) : s.takeRaise.plan = s.plan := by
  rcases s.takeRaise_cases with e | ⟨c, -, -, -, e⟩
  · rw [e.1]
  · rw [e]
    rfl
@[simp] theorem State.takeRaise_schedule (s : State) : s.takeRaise.schedule = s.schedule := by
  rcases s.takeRaise_cases with e | ⟨c, -, -, -, e⟩
  · rw [e.1]
  · rw [e]
    rfl
@[simp] theorem State.takeRaise_moment (s : State) : s.takeRaise.moment = s.moment := by
  rcases s.takeRaise_cases with e | ⟨c, -, -, -, e⟩
  · rw [e.1]
  · rw [e]
    rfl

@[simp] theorem State.resetEvent_seq (s : State) :
    (s.resetEvent).seq = { mode := .idle, chip := Config.resetChip s.moment, op := Config.resetOp s.moment, pending := false, cause := .none } := rfl
@[simp] theorem State.resetEvent_out (s : State) : (s.resetEvent).out = [] := rfl
@[simp] theorem State.resetEvent_L (s : State) : (s.resetEvent).L = [] := rfl
@[simp] theorem State.resetEvent_faultRecord (s : State) : (s.resetEvent).faultRecord = none := rfl
@[simp] theorem State.resetEvent_raised (s : State) : (s.resetEvent).raised = [] := rfl
@[simp] theorem State.resetEvent_due (s : State) : (s.resetEvent).due = none := rfl
@[simp] theorem State.resetEvent_answer (s : State) : (s.resetEvent).answer = none := rfl
@[simp] theorem State.resetEvent_plan (s : State) : (s.resetEvent).plan = [] := rfl
@[simp] theorem State.resetEvent_schedule (s : State) : (s.resetEvent).schedule = s.schedule := rfl
@[simp] theorem State.resetEvent_moment (s : State) : (s.resetEvent).moment = s.moment := rfl

@[simp] theorem State.emitCmd_seq (s : State) (k : Cmd) : (s.emitCmd k).seq = s.seq := rfl
@[simp] theorem State.emitCmd_out (s : State) (k : Cmd) : (s.emitCmd k).out = s.out ++ [k] := rfl
@[simp] theorem State.emitCmd_L (s : State) (k : Cmd) : (s.emitCmd k).L = s.L := rfl
@[simp] theorem State.emitCmd_faultRecord (s : State) (k : Cmd) : (s.emitCmd k).faultRecord = s.faultRecord := rfl
@[simp] theorem State.emitCmd_raised (s : State) (k : Cmd) : (s.emitCmd k).raised = s.raised := rfl
@[simp] theorem State.emitCmd_due (s : State) (k : Cmd) : (s.emitCmd k).due = s.due := rfl
@[simp] theorem State.emitCmd_answer (s : State) (k : Cmd) : (s.emitCmd k).answer = s.answer := rfl
@[simp] theorem State.emitCmd_plan (s : State) (k : Cmd) : (s.emitCmd k).plan = s.plan := rfl
@[simp] theorem State.emitCmd_schedule (s : State) (k : Cmd) : (s.emitCmd k).schedule = s.schedule := rfl
@[simp] theorem State.emitCmd_moment (s : State) (k : Cmd) : (s.emitCmd k).moment = s.moment := rfl

end Sys2Proof.Machine
end

