-- ==== Sys2Proof/Laws/Ops.lean ====
section
/-! SUPPORT. What each shared operation and each step can do, once: the later proofs cite these and unfold nothing. -/

namespace Sys2Proof.Machine

/-- Raising `InvalidChipIndex` is recorded in every mode; it is fault entry in `IDLE` with no request of a full pass still to be
made, and is due while a pass or a full pass runs (log entry 5). -/
theorem State.raiseInvalidChip_cases (s : State) (c : Nat) :
    (s.seq.mode = .idle ∧ s.plan = [] ∧
      s.raiseInvalidChip c = (s.recordInvalidChip c).enterFault .invalidChipIndex (some c)) ∨
    ((s.seq.mode = .busy ∨ s.seq.mode = .idle ∧ s.plan ≠ []) ∧
      s.raiseInvalidChip c = { s.recordInvalidChip c with due := s.due.or (some c) }) ∨
    (s.seq.mode = .fault ∧ s.raiseInvalidChip c = s.recordInvalidChip c) := by
  unfold State.raiseInvalidChip
  cases h : s.seq.mode <;> cases hp : s.plan <;> simp

theorem answerForChip_legal (c : Nat) (h : c < 3) (f : Chip → Answer) (s : State) :
    answerForChip c f s = .next (s.answerWith (f ⟨c, h⟩)) := by
  simp [answerForChip, chipOf?_of_lt c h]

theorem answerForChip_illegal (c : Nat) (h : 3 ≤ c) (f : Chip → Answer) (s : State) :
    answerForChip c f s = .next (s.raiseInvalidChip c) := by
  simp [answerForChip, chipOf?_of_ge c h]

theorem answerForChip_cases (c : Nat) (f : Chip → Answer) (s : State) :
    (∃ a, answerForChip c f s = .next (s.answerWith a)) ∨
    (3 ≤ c ∧ answerForChip c f s = .next (s.raiseInvalidChip c)) := by
  by_cases h : c < 3
  · exact .inl ⟨_, answerForChip_legal c h f s⟩
  · exact .inr ⟨by omega, answerForChip_illegal c (by omega) f s⟩

/-- `START` outside `IDLE` has no step (R76). -/
theorem start_notIdle (c : Nat) (s : State) (h : s.seq.mode ≠ .idle) : start c s = s := by
  unfold start
  cases hm : s.seq.mode
  · exact absurd hm h
  · rfl
  · rfl

theorem start_legal (c : Nat) (s : State) (h : s.seq.mode = .idle) (hc : c < 3) :
    start c s =
      { s with seq := { s.seq with mode := .busy, chip := BitVec.ofNat 2 c, op := 0, pending := false } } := by
  simp [start, h, chipOf?_of_lt c hc]

theorem start_illegal (c : Nat) (s : State) (h : s.seq.mode = .idle) (hc : 3 ≤ c) :
    start c s = (s.recordInvalidChip c).enterFault .invalidChipIndex (some c) := by
  simp [start, h, chipOf?_of_ge c hc]

/-- What `START` can do (R76). -/
theorem start_cases (c : Nat) (s : State) :
    start c s = s ∨
    (s.seq.mode = .idle ∧ c < 3 ∧ start c s =
      { s with seq := { s.seq with mode := .busy, chip := BitVec.ofNat 2 c, op := 0, pending := false } }) ∨
    (s.seq.mode = .idle ∧ 3 ≤ c ∧
      start c s = (s.recordInvalidChip c).enterFault .invalidChipIndex (some c)) := by
  by_cases h : s.seq.mode = .idle
  · by_cases hc : c < 3
    · exact .inr (.inl ⟨h, hc, start_legal c s h hc⟩)
    · exact .inr (.inr ⟨h, by omega, start_illegal c s h (by omega)⟩)
  · exact .inl (start_notIdle c s h)

theorem currentCmd?_of_chip (T : Table) (s : State) (c : Chip) (h : s.seq.chip.toNat = c.val) :
    currentCmd? T s = some (cmdOf T c s.seq.op) := by
  simp [currentCmd?, h]

/-- The command presented at the ports while it is pending (R36, R77). -/
theorem inFlight?_of_pending (s : State) (c : Chip) (hp : s.seq.pending = true) (hc : s.seq.chip.toNat = c.val) :
    inFlight? s = some (cmdOf Config.T c s.seq.op) := by
  rw [inFlight?, if_pos hp, currentCmd?_of_chip Config.T s c hc]

theorem inFlight?_of_not_pending (s : State) (hp : s.seq.pending = false) : inFlight? s = none := by
  simp [inFlight?, hp]

/-- What is presented depends on the pending flag, the chip and the opcode only. -/
theorem inFlight?_congr (s t : State) (hp : t.seq.pending = s.seq.pending) (hc : t.seq.chip = s.seq.chip)
    (ho : t.seq.op = s.seq.op) : inFlight? t = inFlight? s := by
  simp only [inFlight?, currentCmd?, hp, hc, ho]

theorem emitWith_enabled (T : Table) (s : State) (c : Chip) (hm : s.seq.mode = .busy) (hp : s.seq.pending = false)
    (hc : s.seq.chip.toNat = c.val) :
    emitWith T s =
      { s with out := s.out ++ [cmdOf T c s.seq.op], seq := { s.seq with pending := true } } := by
  simp [emitWith, hm, hp, currentCmd?_of_chip T s c hc, State.emitCmd]

/-- What `EMIT` can do (R77). -/
theorem emitWith_cases (T : Table) (s : State) :
    emitWith T s = s ∨
    ∃ c : Chip, s.seq.mode = .busy ∧ s.seq.pending = false ∧ s.seq.chip.toNat = c.val ∧
      emitWith T s =
        { s with out := s.out ++ [cmdOf T c s.seq.op], seq := { s.seq with pending := true } } := by
  by_cases h : s.seq.mode = .busy ∧ s.seq.pending = false
  · by_cases hc : s.seq.chip.toNat < 3
    · exact .inr ⟨⟨_, hc⟩, h.1, h.2, rfl, emitWith_enabled T s ⟨_, hc⟩ h.1 h.2 rfl⟩
    · left
      simp [emitWith, currentCmd?, chipOf?_of_ge _ (Nat.le_of_not_lt hc)]
  · left
    simp [emitWith, h]

theorem ackWith_enabled (T : Table) (s : State) (c : Chip) (hm : s.seq.mode = .busy) (hp : s.seq.pending = true)
    (hc : s.seq.chip.toNat = c.val) :
    ackWith T s =
      { s with L := s.L.writeBytes (baseAddrOf c s.seq.op) (cmdOf T c s.seq.op).bytes.toList,
               seq := acknowledged s.seq } := by
  simp [ackWith, hm, hp, currentCmd?_of_chip T s c hc]

/-- What `ACK` can do (R78). -/
theorem ackWith_cases (T : Table) (s : State) :
    ackWith T s = s ∨
    ∃ c : Chip, s.seq.mode = .busy ∧ s.seq.pending = true ∧ s.seq.chip.toNat = c.val ∧
      ackWith T s =
        { s with L := s.L.writeBytes (baseAddrOf c s.seq.op) (cmdOf T c s.seq.op).bytes.toList,
                 seq := acknowledged s.seq } := by
  by_cases h : s.seq.mode = .busy ∧ s.seq.pending = true
  · by_cases hc : s.seq.chip.toNat < 3
    · exact .inr ⟨⟨_, hc⟩, h.1, h.2, rfl, ackWith_enabled T s ⟨_, hc⟩ h.1 h.2 rfl⟩
    · left
      simp [ackWith, currentCmd?, chipOf?_of_ge _ (Nat.le_of_not_lt hc)]
  · left
    simp [ackWith, h]

/-- What `XFAIL` can do (R93). -/
theorem xfail_cases (s : State) :
    (s.seq.mode ≠ .busy ∧ xfail s = s) ∨
    (s.seq.mode = .busy ∧ xfail s = s.enterFault .transportFailure none) := by
  by_cases h : s.seq.mode = .busy
  · exact .inr ⟨h, if_pos h⟩
  · exact .inl ⟨h, if_neg h⟩

/-- What a `turn` can do (R75, R77): nothing, `EMIT` in `BUSY`, or the next request of a full pass in `IDLE`. -/
theorem turn_cases (s : State) :
    turn s = s ∨
    (s.seq.mode = .busy ∧ turn s = emit s) ∨
    (∃ c rest, s.seq.mode = .idle ∧ s.plan = c :: rest ∧ turn s = start c { s with plan := rest }) := by
  unfold turn continuePlan
  cases h : s.seq.mode
  · cases hp : s.plan with
    | nil => exact .inl (by simp)
    | cons c rest => exact .inr (.inr ⟨c, rest, by simp⟩)
  · exact .inr (.inl ⟨rfl, rfl⟩)
  · exact .inl rfl

/-- A machine that cannot move loses nothing by waiting: its `turn` would change nothing (R108). -/
theorem turn_of_not_canMove (s : State) (h : canMove s = false) : turn s = s := by
  unfold canMove at h
  cases hm : s.seq.mode with
  | idle =>
    simp only [hm, Bool.not_eq_false', List.isEmpty_iff] at h
    simp [turn, continuePlan, hm, h]
  | busy =>
    simp only [turn, hm, emit]
    rcases emitWith_cases Config.T s with e | ⟨c, -, hp, hc, -⟩
    · exact e
    · simp [hm, hp, hc] at h
  | fault => simp [turn, hm]

/-- What an instruction can do, whatever it is: answer, raise `InvalidChipIndex`, start a pass, plan a full pass, or write the
8 bytes of a command of its own in `IDLE`. -/
theorem exec_cases (i : Instr) (s : State) :
    (∃ a, exec i s = .next (s.answerWith a)) ∨
    (∃ c, 3 ≤ c ∧ exec i s = .next (s.raiseInvalidChip c)) ∨
    (∃ c, exec i s = .next (start c s)) ∨
    (s.seq.mode = .idle ∧ exec i s = .next (start 0 { s with plan := [1, 2] })) ∨
    (∃ a addr bs, s.seq.mode = .idle ∧
      exec i s = .next { s.answerWith a with L := s.L.writeBytes addr bs }) := by
  cases i with
  | lookup op st => exact .inl ⟨_, rfl⟩
  | split cw => exact .inl ⟨_, rfl⟩
  | join p2 p1 p0 => exact .inl ⟨_, rfl⟩
  | romaddr op st => exact .inl ⟨_, rfl⟩
  | mux sel p0 p1 p2 => exact (answerForChip_cases sel _ s).imp id (fun h => .inl ⟨_, h.1, h.2⟩)
  | plane c cw => exact (answerForChip_cases c _ s).imp id (fun h => .inl ⟨_, h.1, h.2⟩)
  | baseaddr c op => exact (answerForChip_cases c _ s).imp id (fun h => .inl ⟨_, h.1, h.2⟩)
  | logaddr c op st => exact (answerForChip_cases c _ s).imp id (fun h => .inl ⟨_, h.1, h.2⟩)
  | romimage c a => exact (answerForChip_cases c _ s).imp id (fun h => .inl ⟨_, h.1, h.2⟩)
  | encode0 => exact .inr (.inr (.inl ⟨_, rfl⟩))
  | encode1 => exact .inr (.inr (.inl ⟨_, rfl⟩))
  | encode2 => exact .inr (.inr (.inl ⟨_, rfl⟩))
  | reservedChip3 => exact .inr (.inr (.inl ⟨_, rfl⟩))
  | fullpass =>
    cases h : s.seq.mode
    · exact .inr (.inr (.inr (.inl ⟨rfl, by simp [exec, execFullpass, h]⟩)))
    · exact .inr (.inr (.inl ⟨0, by simp [exec, execFullpass, h, start]⟩))
    · exact .inr (.inr (.inl ⟨0, by simp [exec, execFullpass, h, start]⟩))
  | wr addr bytes =>
    cases h : s.seq.mode
    · exact .inr (.inr (.inr (.inr ⟨_, _, _, rfl, by simp only [exec, execWr, h]; rfl⟩)))
    · exact .inl ⟨_, by simp only [exec, execWr, h]; rfl⟩
    · exact .inl ⟨_, by simp only [exec, execWr, h]; rfl⟩

/-- What an instruction leaves alone outside `IDLE`: the sequencer, the fault record, `out`, `L` and the schedule (R76, R95,
R96). -/
theorem exec_notIdle (i : Instr) (s t : State) (hm : s.seq.mode ≠ .idle) (h : exec i s = .next t) :
    t.seq = s.seq ∧ t.faultRecord = s.faultRecord ∧ t.out = s.out ∧ t.L = s.L ∧ t.schedule = s.schedule := by
  rcases exec_cases i s with ⟨a, e⟩ | ⟨c, -, e⟩ | ⟨c, e⟩ | ⟨hi, -⟩ | ⟨-, -, -, hi, -⟩
  · rw [e] at h
    cases h
    simp
  · rw [e] at h
    cases h
    rcases s.raiseInvalidChip_cases c with ⟨hi, -⟩ | ⟨-, e⟩ | ⟨-, e⟩
    · exact absurd hi hm
    · rw [e]
      simp
    · rw [e]
      simp
  · rw [e, start_notIdle c s hm] at h
    cases h
    simp
  · exact absurd hi hm
  · exact absurd hi hm

/-- The state after an event of the schedule is taken off it, before its effect. -/
abbrev State.taken (s : State) (rest : List Event) : State :=
  { s with schedule := rest, moment := s.moment + 1 }

/-- What a step can do once a raise that is due is entered (R32): wait, move on its own, take an event, run a presented
instruction, or refuse a word that is none. -/
theorem stepEvent_cases (s : State) :
    (s.schedule = [] ∧ canMove s = false ∧ stepEvent s = .next s) ∨
    (s.schedule = [] ∧ canMove s = true ∧ stepEvent s = .next (turn (s.taken s.schedule))) ∨
    (∃ rest, s.schedule = .turn :: rest ∧ stepEvent s = .next (turn (s.taken rest))) ∨
    (∃ rest, s.schedule = .ack :: rest ∧ stepEvent s = .next (acknowledge (s.taken rest))) ∨
    (∃ rest, s.schedule = .xfail :: rest ∧ stepEvent s = .next (xfail (s.taken rest))) ∨
    (∃ rest, s.schedule = .rst :: rest ∧ stepEvent s = .next (s.taken rest).resetEvent) ∨
    (∃ r rest i, s.schedule = .request r :: rest ∧ decode r = .ok i ∧ stepEvent s = exec i (s.taken rest)) ∨
    (∃ r rest why, s.schedule = .request r :: rest ∧ decode r = .error why ∧
      stepEvent s = .refused (.noInstruction why)) := by
  cases hs : s.schedule with
  | nil =>
    cases hm : canMove s
    · exact .inl ⟨rfl, rfl, by simp [stepEvent, hs, hm]⟩
    · exact .inr (.inl ⟨rfl, rfl, by simp [stepEvent, hs, hm]⟩)
  | cons e rest =>
    right; right
    cases e with
    | turn => exact .inl ⟨rest, rfl, by simp [stepEvent, hs]⟩
    | ack => exact .inr (.inl ⟨rest, rfl, by simp [stepEvent, hs]⟩)
    | xfail => exact .inr (.inr (.inl ⟨rest, rfl, by simp [stepEvent, hs]⟩))
    | rst => exact .inr (.inr (.inr (.inl ⟨rest, rfl, by simp [stepEvent, hs]⟩)))
    | request r =>
      cases hd : decode r with
      | ok i => exact .inr (.inr (.inr (.inr (.inl ⟨r, rest, i, rfl, hd, by simp [stepEvent, hs, hd]⟩))))
      | error why => exact .inr (.inr (.inr (.inr (.inr ⟨r, rest, why, rfl, hd, by simp [stepEvent, hs, hd]⟩))))

/-- What a step can do (R32): a raise that is due is entered, and then it is one of the steps of `stepEvent_cases`. -/
theorem step_cases (s : State) :
    (s.schedule = [] ∧ canMove s.takeRaise = false ∧ step s = .next s.takeRaise) ∨
    (s.schedule = [] ∧ canMove s.takeRaise = true ∧ step s = .next (turn (s.takeRaise.taken s.schedule))) ∨
    (∃ rest, s.schedule = .turn :: rest ∧ step s = .next (turn (s.takeRaise.taken rest))) ∨
    (∃ rest, s.schedule = .ack :: rest ∧ step s = .next (acknowledge (s.takeRaise.taken rest))) ∨
    (∃ rest, s.schedule = .xfail :: rest ∧ step s = .next (xfail (s.takeRaise.taken rest))) ∨
    (∃ rest, s.schedule = .rst :: rest ∧ step s = .next (s.takeRaise.taken rest).resetEvent) ∨
    (∃ r rest i, s.schedule = .request r :: rest ∧ decode r = .ok i ∧ step s = exec i (s.takeRaise.taken rest)) ∨
    (∃ r rest why, s.schedule = .request r :: rest ∧ decode r = .error why ∧
      step s = .refused (.noInstruction why)) := by
  have h := stepEvent_cases s.takeRaise
  rw [State.takeRaise_schedule] at h
  exact h

/-- Where no raise is to be entered, a step is the step of an event. -/
theorem step_of_notIdle (s : State) (h : s.seq.mode ≠ .idle) : step s = stepEvent s := by
  rw [step, s.takeRaise_of_notIdle h]

theorem step_of_none (s : State) (h : s.due = none) : step s = stepEvent s := by
  rw [step, s.takeRaise_of_none h]

end Sys2Proof.Machine
end

