-- ==== Sys2Proof/Laws/PerInstr.lean ====
section
/-! SUPPORT. The per-instruction family `WordFits`: the word of a well-formed instruction fits the width of its format, and no
instruction's word is presented at another operation's port than its own (R33 to R37, R40). -/

namespace Sys2Proof.Laws.WordFits

/-- The word of a well-formed instruction is a word of its operation's format. -/
def Statement (i : Instr) : Prop :=
  i.wellFormed = true → (encode i).word < 2 ^ (encode i).operation.width

theorem lookup (op : Opcode) (s : Step) : Statement (.lookup op s) := by
  intro _
  have := op.isLt; have := s.isLt
  simp only [encode, Operation.width]; omega

theorem split (cw : CW) : Statement (.split cw) := fun _ => cw.isLt

theorem mux (sel : Nat) (p0 p1 p2 : Byte) : Statement (.mux sel p0 p1 p2) := by
  intro h
  have := p0.isLt; have := p1.isLt; have := p2.isLt
  simp only [Instr.wellFormed, fitsChipPort, decide_eq_true_eq] at h
  simp only [encode, Operation.width]; omega

theorem plane (c : Nat) (cw : CW) : Statement (.plane c cw) := by
  intro h
  have := cw.isLt
  simp only [Instr.wellFormed, fitsChipPort, decide_eq_true_eq] at h
  simp only [encode, Operation.width]; omega

theorem join (p2 p1 p0 : Byte) : Statement (.join p2 p1 p0) := by
  intro _
  have := p0.isLt; have := p1.isLt; have := p2.isLt
  simp only [encode, Operation.width]; omega

theorem romaddr (op : Opcode) (s : Step) : Statement (.romaddr op s) := by
  intro _
  have := op.isLt; have := s.isLt
  simp only [encode, Operation.width]; omega

theorem baseaddr (c : Nat) (op : Opcode) : Statement (.baseaddr c op) := by
  intro h
  have := op.isLt
  simp only [Instr.wellFormed, fitsChipPort, decide_eq_true_eq] at h
  simp only [encode, Operation.width]; omega

theorem logaddr (c : Nat) (op : Opcode) (s : Step) : Statement (.logaddr c op s) := by
  intro h
  have := op.isLt; have := s.isLt
  simp only [Instr.wellFormed, fitsChipPort, decide_eq_true_eq] at h
  simp only [encode, Operation.width]; omega

theorem romimage (c : Nat) (a : RomAddr) : Statement (.romimage c a) := by
  intro h
  have := a.isLt
  simp only [Instr.wellFormed, fitsChipPort, decide_eq_true_eq] at h
  simp only [encode, Operation.width]; omega

theorem encode0 : Statement .encode0 := fun _ => by decide

theorem encode1 : Statement .encode1 := fun _ => by decide

theorem encode2 : Statement .encode2 := fun _ => by decide

theorem reservedChip3 : Statement .reservedChip3 := fun _ => by decide

theorem fullpass : Statement .fullpass := fun _ => by decide

/-- Appending bytes below a number of `k` bits gives one of 8 more bits for each byte. -/
theorem appendBytes_lt (bs : List Byte) (acc k : Nat) (h : acc < 2 ^ k) :
    bs.foldl (fun acc x => acc * 2 ^ 8 + x.toNat) acc < 2 ^ (k + 8 * bs.length) := by
  induction bs generalizing acc k with
  | nil => exact h
  | cons x bs ih =>
    have hx := x.isLt
    have step : acc * 2 ^ 8 + x.toNat < 2 ^ (k + 8) := by
      rw [Nat.pow_add]
      omega
    have := ih _ _ step
    rwa [Nat.add_assoc, Nat.add_comm 8, ← Nat.mul_succ] at this

/-- The data field of a `CMD` word has 64 bits (R37). -/
theorem packBytes_lt (b : Vector Byte 8) : packBytes b < 2 ^ 64 := by
  have := appendBytes_lt b.toList 0 0 (by decide)
  rwa [Vector.length_toList] at this

theorem wr (addr : LogAddr) (bytes : Vector Byte 8) : Statement (.wr addr bytes) := by
  intro _
  have := addr.isLt
  have := packBytes_lt bytes
  simp only [encode, Operation.width]; omega

end Sys2Proof.Laws.WordFits
end

