-- ==== Sys2Proof/Laws/Runs.lean ====
section
/-! SUPPORT. Runs: composing steps, the two steps of a pass as equations, and reading `L` after a command of the block. -/

namespace Sys2Proof.Machine

/-- Steps compose. -/
theorem stepN_add (a b : Nat) (s t : State) (h : stepN a s = .next t) : stepN (a + b) s = stepN b t := by
  induction a generalizing s with
  | zero =>
    cases h
    simp
  | succ a ih =>
    rw [Nat.succ_add]
    simp only [stepN] at h ⊢
    split at h
    · next u hu => exact ih u h
    · cases h
    · cases h

theorem stepN_one (s t : State) (h : step s = .next t) : stepN 1 s = .next t := by
  simp [stepN, h]

/-- `L` after a command of the block, read at any address (R71, R85). -/
theorem read?_after_cmdOf (m : Memory) (T : Table) (c : Chip) (op : Opcode) (n : Nat) :
    (m.writeBytes (baseAddrOf c op) (cmdOf T c op).bytes.toList).read? n =
      if c.val * 2048 + op.toNat * 8 ≤ n ∧ n < c.val * 2048 + op.toNat * 8 + 8 then
        some (planeByte c (T op (BitVec.ofNat 3 n)))
      else m.read? n := by
  have hc := c.isLt
  have ho := op.isLt
  rw [Memory.read?_writeBytes _ _ _ _ (by rw [cmdOf_bytes_length, baseAddrOf_toNat]; omega), cmdOf_bytes_length,
    baseAddrOf_toNat]
  split
  · rw [← cmdOf_bytes_get T c op (BitVec.ofNat 3 n)]
    congr 1
    simp
    omega
  · rfl

/-- The events of `n + 1` acknowledgments are those of `n` and one more pair. -/
theorem pairs_succ (n : Nat) : Safety.pairs (n + 1) = Safety.pairs n ++ [.turn, .ack] := by
  simp [Safety.pairs, List.replicate_succ', List.flatten_append]

/-- No instruction extends `out`: only `EMIT` does (R18). -/
theorem exec_out (i : Instr) (s t : State) (h : exec i s = .next t) : t.out = s.out := by
  have hstart : ∀ (c : Nat) (u : State), (start c u).out = u.out := by
    intro c u
    rcases start_cases c u with e | ⟨-, -, e⟩ | ⟨-, -, e⟩ <;> rw [e]
    rfl
  rcases exec_cases i s with ⟨a, e⟩ | ⟨c, -, e⟩ | ⟨c, e⟩ | ⟨-, e⟩ | ⟨a, addr, bs, -, e⟩ <;> rw [e] at h <;> cases h
  · rfl
  · rcases s.raiseInvalidChip_cases c with ⟨-, -, e⟩ | ⟨-, e⟩ | ⟨-, e⟩ <;> rw [e] <;> rfl
  · exact hstart c s
  · exact hstart 0 _
  · rfl

end Sys2Proof.Machine
end

