-- ==== Sys2Proof/Tests/Slice0.lean ====
section
/-! SUPPORT. The model's own tests. Expected values are the spec's: its worked examples and 95_test_vectors.md (fixture table A,
which is not the reference wiring). Then, for every statement with hypotheses, a witness that meets them all. -/

namespace Sys2Proof.Tests

open Sys2Proof Sys2Proof.Machine Sys2Proof.Safety

/-! ### The fixture of 95_test_vectors.md section 2 -/

/-- Fixture positions A. -/
def positionsA : Config.Positions := { mai := 0, pco := 9, mo := 18, iri := 3, ce := 12, rsc := 21, hlt := 7 }

/-- The real opcodes of fixture table A. -/
def realA (op : Opcode) : Bool := op == 0x10 || op == 0xFF

/-- Fixture table A. -/
def tableA : Table := fun op s =>
  if op = 0xFF then #v[0x000201#24, 0x041008, 0x000080, 0x200000, 0, 0, 0, 0][s.toNat]
  else if op = 0x10 then #v[0x000201#24, 0x041008, 0x8A5C3E, 0x15A3C7, 0x200000, 0, 0, 0][s.toNat]
  else #v[0x000201#24, 0x041008, 0x200000, 0, 0, 0, 0, 0][s.toNat]

/-- The table whose word is its own ROM address (95_test_vectors.md section 5). -/
def tableOwnAddress : Table := fun op s => (romAddrOf op s).setWidth 24

/-- A state in a given position, with nothing emitted or written. -/
def at' (mode : Mode) (chip : BitVec 2) (op : Opcode) (pending : Bool) (cause : Cause) (schedule : List Event) : State :=
  { State.reset with seq := { mode, chip, op, pending, cause }, schedule }

/-- A text given by its characters. -/
def chars (t : String) : List Byte := t.toList.map fun c => BitVec.ofNat 8 c.toNat

/-! ### WellFormed refuses an ill-formed term, for each check -/

theorem test_wellFormed_mux : (Instr.mux 4 0 0 0).wellFormed = false := by decide
theorem test_wellFormed_plane : (Instr.plane 4 0).wellFormed = false := by decide
theorem test_wellFormed_baseaddr : (Instr.baseaddr 4 0).wellFormed = false := by decide
theorem test_wellFormed_logaddr : (Instr.logaddr 4 0 0).wellFormed = false := by decide
theorem test_wellFormed_romimage : (Instr.romimage 4 0).wellFormed = false := by decide
theorem test_wellFormed_wr_high_bits :
    (Instr.wr 0x2000 #v[0, 0, 0, 0, 0, 0, 0, 0]).wellFormed = false := by decide
theorem test_wellFormed_wr_step_bits :
    (Instr.wr 0x0884 #v[0, 0, 0, 0, 0, 0, 0, 0]).wellFormed = false := by decide
theorem test_wellFormed_illegal_index_is_a_term : (Instr.mux 3 0 0 0).wellFormed = true := by decide

/-! ### Every constructor from a word written out from its format -/

/-- `oooooooo sss` (R34): opcode `0x10`, step 3. -/
theorem test_decode_lookup : decode ⟨.lookup, 0b00010000_011⟩ = .ok (.lookup 0x10 3) := by decide
/-- `cccccccc bbbbbbbb aaaaaaaa` (R33). -/
theorem test_decode_split : decode ⟨.split, 0b10101011_11001101_11101111⟩ = .ok (.split 0xABCDEF) := by decide
/-- `kk cccccccc bbbbbbbb aaaaaaaa`: selector 1, plane 2 highest. -/
theorem test_decode_mux :
    decode ⟨.mux, 0b01_10101011_11001101_11101111⟩ = .ok (.mux 1 0xEF 0xCD 0xAB) := by decide
/-- `kk` then the control word. -/
theorem test_decode_plane : decode ⟨.plane, 0b10_000100100011010001010110⟩ = .ok (.plane 2 0x123456) := by decide
/-- `cccccccc bbbbbbbb aaaaaaaa`: plane 2 first. -/
theorem test_decode_join :
    decode ⟨.join, 0b10101011_11001101_11101111⟩ = .ok (.join 0xAB 0xCD 0xEF) := by decide
theorem test_decode_romaddr : decode ⟨.romaddr, 0b11111111_101⟩ = .ok (.romaddr 0xFF 5) := by decide
/-- `000 kk oooooooo 000` (R35). -/
theorem test_decode_baseaddr : decode ⟨.baseaddr, 0b000_01_00010000_000⟩ = .ok (.baseaddr 1 0x10) := by decide
/-- `000 kk oooooooo sss` (R35): `0x1405`. -/
theorem test_decode_logaddr : decode ⟨.logaddr, 0b000_10_10000000_101⟩ = .ok (.logaddr 2 0x80 5) := by decide
/-- `oooooooo sss`, the chip index in the two bits above (log entry 17). -/
theorem test_decode_romimage : decode ⟨.romimage, 0b01_00010000_011⟩ = .ok (.romimage 1 0x083) := by decide
theorem test_decode_encode0 : decode ⟨.encode, 0b00⟩ = .ok .encode0 := by decide
theorem test_decode_encode1 : decode ⟨.encode, 0b01⟩ = .ok .encode1 := by decide
theorem test_decode_encode2 : decode ⟨.encode, 0b10⟩ = .ok .encode2 := by decide
theorem test_decode_reservedChip3 : decode ⟨.encode, 0b11⟩ = .ok .reservedChip3 := by decide
theorem test_decode_fullpass : decode ⟨.fullpass, 0b00⟩ = .ok .fullpass := by decide
/-- `CMD` (R37): the record `0880 02105CA300000000` of 95_test_vectors.md section 5. -/
theorem test_decode_wr :
    decode ⟨.wr, 0x0880_02105CA300000000⟩ = .ok (.wr 0x0880 #v[0x02, 0x10, 0x5C, 0xA3, 0, 0, 0, 0]) := by decide
theorem test_decode_too_wide : decode ⟨.encode, 0b100⟩ = .error (.tooWide .encode) := by decide
theorem test_decode_high_address_bits : decode ⟨.logaddr, 0b001_00_00000000_000⟩ = .error (.fixedBits .logaddr) := by decide
theorem test_decode_step_bits : decode ⟨.baseaddr, 0b000_00_00000000_001⟩ = .error (.fixedBits .baseaddr) := by decide
theorem test_decode_wr_step_bits : decode ⟨.wr, 0x0884_0000000000000000⟩ = .error (.fixedBits .wr) := by decide
theorem test_decode_fullpass_bits : decode ⟨.fullpass, 0b01⟩ = .error (.fixedBits .fullpass) := by decide
theorem test_decode_table_word : decodeTableWord 8 2 = some .encode2 := by decide
theorem test_decode_table_word_address : decodeTableWord 16 0x0880 = some (.baseaddr 1 0x10) := by decide
theorem test_fetch_word_runs :
    step (State.reset.withFetchWord 8 3) = exec .reservedChip3 { State.reset with moment := 1 } := by rfl

/-! ### The operations (95_test_vectors.md sections 3 to 5) -/

theorem test_lookup : lookupIn tableA 0x10 2 = 0x8A5C3E ∧ lookupIn tableA 0xFF 3 = 0x200000 := by decide
theorem test_lookup_default : lookupIn tableA 0x00 2 = 0x200000 ∧ lookupIn tableA 0x7F 1 = 0x041008 := by decide
theorem test_split : splitWord 0xABCDEF = (0xEF, 0xCD, 0xAB) := by decide
theorem test_mux : exec (.mux 1 0xEF 0xCD 0xAB) State.reset = .next { State.reset with answer := some (.byte 0xCD) } := by
  rfl
theorem test_mux_illegal :
    exec (.mux 3 0xEF 0xCD 0xAB) State.reset =
      .next { at' .fault 0 0 false .invalidChipIndex [] with faultRecord := some 3, raised := [3] } := by rfl
theorem test_plane : planeByte 1 0x123456 = 0x34 ∧ planeByte 0 0x800000 = 0 ∧ planeByte 2 0x800000 = 0x80 := by decide
theorem test_plane_neighbours : planeByte 0 0x000100 = 0 ∧ planeByte 1 0x000080 = 0 ∧ planeByte 1 0x010000 = 0 := by decide
theorem test_join : joinWord 0x8A 0x5C 0x3E = 0x8A5C3E ∧ joinWord 0x80 0x00 0x00 = 0x800000 := by decide
theorem test_romaddr : romAddrOf 0x10 3 = 0x083 ∧ romAddrOf 0xFF 7 = 0x7FF := by decide
theorem test_baseaddr : baseAddrOf 1 0x10 = 0x0880 ∧ baseAddrOf 2 0xFF = 0x17F8 := by decide
theorem test_baseaddr_illegal :
    exec (.baseaddr 3 0) State.reset =
      .next { at' .fault 0 0 false .invalidChipIndex [] with faultRecord := some 3, raised := [3] } := by rfl
theorem test_logaddr : logAddrOf 2 0x80 5 = 0x1405 ∧ logAddrOf 1 0xFF 7 = 0x0FFF := by decide
theorem test_address_fields :
    logChip 0x0883 = 1 ∧ logOp 0x0883 = 0x10 ∧ logStep 0x0883 = 3 ∧ logRom 0x0883 = 0x083 := by decide
theorem test_romimage : romImage tableA 1 0x083 = 0xA3 ∧ romImage tableA 2 0x7FB = 0x20 := by decide
theorem test_romimage_halt : romImage tableA 0 0x7FA = 0x80 ∧ romImage tableA 2 0x002 = 0x20 := by decide
theorem test_encode_command : cmdOf tableA 2 0x10 = ⟨0x1080, #v[0x00, 0x04, 0x8A, 0x15, 0x20, 0, 0, 0]⟩ := by decide
theorem test_encode_own_address :
    cmdOf tableOwnAddress 1 0x25 = ⟨0x0928, #v[1, 1, 1, 1, 1, 1, 1, 1]⟩ ∧
    cmdOf tableOwnAddress 0 0x25 = ⟨0x0128, #v[0x28, 0x29, 0x2A, 0x2B, 0x2C, 0x2D, 0x2E, 0x2F]⟩ := by decide
theorem test_wr_text :
    wrTextWith true [] 0x0880 #v[0x02, 0x10, 0x5C, 0xA3, 0, 0, 0, 0] = chars "WR 0880 02 10 5C A3 00 00 00 00 !" := by
  decide
theorem test_wr_reads_back :
    readText? (chars "WR 17f8 00 04 00 20 00 00 00 aB !") = some ⟨0x17F8, #v[0, 0x04, 0, 0x20, 0, 0, 0, 0xAB]⟩ ∧
    readText? (chars "WR 17F8 00 04 00 20 00 00 00 00  ") = none := by decide
/-- With an end-of-command byte after the `!` (log entry 25). -/
theorem test_wr_reads_back_eol :
    readText? (wrTextWith true [0x0A] 0x0880 #v[2, 0x10, 0x5C, 0xA3, 0, 0, 0, 0]) =
      some ⟨0x0880, #v[2, 0x10, 0x5C, 0xA3, 0, 0, 0, 0]⟩ := by decide

/-! ### Sequencer steps (95_test_vectors.md section 6) -/

theorem test_encode0 : exec .encode0 State.reset = .next (at' .busy 0 0 false .none []) := by rfl
theorem test_reservedChip3 :
    exec .reservedChip3 State.reset =
      .next { at' .fault 0 0 false .invalidChipIndex [] with faultRecord := some 3, raised := [3] } := by rfl
theorem test_encode1_while_busy :
    exec .encode1 (at' .busy 0 5 true .none []) = .next (at' .busy 0 5 true .none []) := by rfl
theorem test_plane_illegal_while_busy :
    exec (.plane 3 0) (at' .busy 0 5 true .none []) =
      .next { at' .busy 0 5 true .none [] with raised := [3], due := some 3 } := by rfl
theorem test_raise_entered_after_pass :
    step { at' .idle 0 255 false .none [.request ⟨.encode, 0⟩] with raised := [3], due := some 3 } =
      .next { at' .fault 0 255 false .invalidChipIndex [] with
        faultRecord := some 3, raised := [3], moment := 1 } := by rfl
/-- A full pass too runs to completion: its next request is made, and the raise stays due (R96, log entry 5). -/
theorem test_raise_waits_for_full_pass :
    step { at' .idle 1 255 false .none [.turn] with raised := [3], due := some 3, plan := [2] } =
      .next { at' .busy 2 0 false .none [] with raised := [3], due := some 3, moment := 1 } := by rfl
theorem test_plane_illegal_in_fault :
    exec (.plane 3 0) (at' .fault 0 5 true .transportFailure []) =
      .next { at' .fault 0 5 true .transportFailure [] with raised := [3] } := by rfl
theorem test_encode2 : exec .encode2 State.reset = .next (at' .busy 2 0 false .none []) := by rfl
theorem test_fullpass : exec .fullpass State.reset = .next { at' .busy 0 0 false .none [] with plan := [1, 2] } := by rfl
theorem test_emit :
    emitWith tableA (at' .busy 1 0x10 false .none []) =
      { at' .busy 1 0x10 true .none [] with out := [⟨0x0880, #v[0x02, 0x10, 0x5C, 0xA3, 0, 0, 0, 0]⟩] } := by decide
theorem test_emit_pending : emitWith tableA (at' .busy 0 5 true .none []) = at' .busy 0 5 true .none [] := by decide
theorem test_ack :
    ackWith tableA (at' .busy 1 0x10 true .none []) =
      { at' .busy 1 0x11 false .none [] with
        L := [(0x880, 0x02), (0x881, 0x10), (0x882, 0x5C), (0x883, 0xA3), (0x884, 0), (0x885, 0), (0x886, 0),
              (0x887, 0)] } := by decide
theorem test_ack_last :
    (ackWith tableA (at' .busy 2 0xFF true .none [])).seq =
      { mode := .idle, chip := 2, op := 0xFF, pending := false, cause := .none } := by decide
theorem test_command_ports :
    cmdAddrPort? (at' .busy 1 0x10 true .none []) = some 0x0880 ∧ cmdDataPort? (at' .busy 1 0x10 false .none []) = none ∧
    cmdData #v[0x02, 0x10, 0x5C, 0xA3, 0, 0, 0, 0] = 0x00000000A35C1002#64 := by decide
theorem test_xfail :
    xfail (at' .busy 0 5 true .none []) = at' .fault 0 5 true .transportFailure [] := by decide
theorem test_wr_idle :
    ∃ t, exec (.wr 0x17F8 #v[0, 4, 0, 0x20, 0, 0, 0, 0]) State.reset = .next t ∧ t.L.read? 0x17FB = some 0x20 ∧
      t.L.read? 0x1800 = none := ⟨_, rfl, by decide, by decide⟩
theorem test_table_reads : (tableReads (at' .busy 0 0x25 false .none [])).head? = some 0x128 := by decide
theorem test_missing_ack : step (at' .busy 0 0 true .none []) = .next (at' .busy 0 0 true .none []) := by rfl

/-! ### Witnesses: each statement's hypotheses are met together -/

theorem witness_admissible : admissibleWith tableA positionsA realA := by
  refine ⟨by decide, by decide, fun op => ?_, fun op => ?_, fun op h s => ?_, fun op => ?_, ?_⟩
  · unfold tableA
    split
    · decide
    · split <;> decide
  · unfold tableA
    split
    · decide
    · split <;> decide
  · have h10 : op ≠ 0x10 := by rintro rfl; revert h; decide
    have hff : op ≠ 0xFF := by rintro rfl; revert h; decide
    simp only [tableA, if_neg h10, if_neg hff]
    revert s
    decide
  · unfold closesAt tableA
    split
    · exact ⟨3, by decide⟩
    · split
      · exact ⟨4, by decide⟩
      · exact ⟨2, by decide⟩
  · decide

/-- With `witness_admissible`, for the clauses about default entries and late steps. -/
theorem witness_default_opcode : realA 0x00 = false ∧ 3 ≤ (3 : Step).toNat ∧ 4 ≤ (7 : Step).toNat := by decide

theorem witness_presented :
    decode ⟨.lookup, 0x083⟩ = .ok (.lookup 0x10 3) ∧
    (at' .idle 0 0 false .none [.request ⟨.lookup, 0x083⟩]).schedule = [.request ⟨.lookup, 0x083⟩] := by decide
theorem witness_table_word : decodeTableWord 80 0x17F8_0004002000000000 =
    some (.wr 0x17F8 #v[0, 4, 0, 0x20, 0, 0, 0, 0]) := by decide
theorem witness_malformed :
    step (at' .idle 0 0 false .none [.request ⟨.encode, 4⟩]) = .refused (.noInstruction (.tooWide .encode)) := by rfl
theorem witness_rst : (at' .fault 0 5 true .transportFailure [.rst]).schedule = [.rst] := by decide
theorem witness_independence :
    (∀ j < 8, (0x00CD00#24).getLsbD (8 * (1 : Chip).val + j) = (0xFFCDFF#24).getLsbD (8 * (1 : Chip).val + j)) ∧
    planeByte 1 0x00CD00 = 0xCD ∧ planeByte 1 0xFFCDFF = 0xCD := by decide
theorem witness_illegal_idle : State.reset.seq.mode = .idle ∧ 3 ≤ 3 := by decide
theorem witness_illegal_between_requests :
    ({ at' .idle 0 255 false .none [] with plan := [1, 2] } : State).seq.mode = .idle ∧
    ({ at' .idle 0 255 false .none [] with plan := [1, 2], due := some 3 } : State).due = some 3 ∧ 3 ≤ 3 := by decide
theorem witness_illegal_busy : (at' .busy 1 7 true .none []).seq.mode = .busy ∧ 3 ≤ 3 := by decide
theorem witness_illegal_fault : (at' .fault 1 7 true .transportFailure []).seq.mode = .fault ∧ 3 ≤ 3 := by decide
theorem witness_combinational :
    combinational (.plane 3 0) = true ∧ ∃ t, exec (.plane 3 0) State.reset = .next t ∧ t.seq.mode = .fault :=
  ⟨rfl, _, rfl, rfl⟩
theorem witness_largest_address : (0x17FF#16).toNat ≤ 0x17FF ∧ (0#16).toNat ≤ 0x17FF := by decide
theorem witness_opcode_not_last : (0xFE : Opcode) ≠ 0xFF ∧ (0 : Opcode) ≠ 0xFF := by decide
theorem witness_other_chip : (1 : Chip) ≠ 2 := by decide
theorem witness_segment : inSegment 2 0x17FF ∧ inSegment 2 0x1000 ∧ ¬ inSegment 2 0x1800 := by decide
theorem witness_reordering (c : Chip) :
    Memory.wf [] ∧ (encodeCmds tableA c).reverse.Perm (encodeCmds tableA c) ∧
    (encodeCmds tableA 2 ++ (encodeCmds tableA 0 ++ encodeCmds tableA 1)).Perm (fullPassCmds tableA) :=
  ⟨by decide, List.reverse_perm _, List.perm_append_comm⟩
theorem witness_rewriting : Memory.wf [(0x17F9, 3)] ∧ (cmdOf tableA 2 0xFF).addr.toNat % 8 = 0 := by decide
theorem witness_idle : State.reset.seq.mode = .idle := by decide
theorem witness_not_enabled :
    (at' .fault 0 0 false .invalidChipIndex [.request (encode .fullpass)]).seq.mode ≠ .idle ∧
    (at' .busy 0 5 false .none [.ack]).seq.pending = false ∧
    (at' .idle 0 5 false .none [.xfail]).seq.mode ≠ .busy ∧
    (at' .busy 0 5 true .none [.turn]).seq.pending = true ∧ (at' .idle 0 5 true .none [.turn]).plan = [] := by decide
theorem witness_emit :
    (at' .busy 2 255 false .none [.turn]).seq.chip.toNat = (2 : Chip).val ∧
    (at' .busy 2 255 false .none []).schedule = [] ∧ (at' .busy 2 255 false .none [.turn]).seq.pending = false := by decide
theorem witness_ack :
    (at' .busy 2 255 true .none [.ack]).seq.chip.toNat = (2 : Chip).val ∧
    (at' .busy 0 254 true .none [.ack]).seq.chip.toNat = (0 : Chip).val ∧
    (at' .busy 0 254 true .none [.ack]).schedule = [.ack] := by decide
theorem witness_xfail :
    (at' .busy 0 5 true .none [.xfail]).seq.mode = .busy ∧ (at' .busy 0 5 false .none [.xfail]).schedule = [.xfail] := by
  decide
theorem witness_fault_step :
    ∃ t, step (at' .fault 0 5 true .transportFailure [.ack]) = .next t ∧ t.seq.mode = .fault := ⟨_, rfl, rfl⟩
theorem witness_fault_reset :
    ∃ t, step (at' .fault 0 5 true .transportFailure [.rst]) = .next t ∧ t.seq.mode = .idle := ⟨_, rfl, rfl⟩
theorem witness_pass_ends :
    ∃ t, step (at' .busy 2 255 true .none [.ack]) = .next t ∧ t.seq.mode ≠ .busy := ⟨_, rfl, by decide⟩
theorem witness_request_while_busy :
    ∃ t, step (at' .busy 2 255 true .none [.request ⟨.mux, 3 * 2 ^ 24⟩]) = .next t ∧ t.seq.mode = .busy ∧ t.due = some 3 :=
  ⟨_, rfl, rfl, rfl⟩
theorem witness_raise_due :
    ∃ t, step { at' .idle 2 255 false .none [] with raised := [3], due := some 3 } = .next t ∧
      t.seq.cause = .invalidChipIndex := ⟨_, rfl, rfl⟩
theorem witness_counter :
    ∃ t, step (at' .busy 2 254 true .none [.ack]) = .next t ∧ t.seq.mode = .busy ∧ t.seq.op = 255 := ⟨_, rfl, rfl, rfl⟩
theorem witness_invalid_cause :
    ∃ t, step (at' .idle 0 0 false .none [.request ⟨.encode, 3⟩]) = .next t ∧ t.seq.cause = .invalidChipIndex :=
  ⟨_, rfl, rfl⟩
theorem witness_transport_cause :
    ∃ t, step (at' .busy 0 0 false .none [.xfail]) = .next t ∧ t.seq.cause = .transportFailure := ⟨_, rfl, rfl⟩
theorem witness_waiting :
    (at' .busy 0 0 true .none []).seq.mode = .busy ∧ (at' .busy 0 0 true .none []).schedule = [] := by decide

theorem witness_moved :
    ∃ t, step (at' .busy 0 0 true .none [.xfail]) = .next t ∧ t.seq ≠ (at' .busy 0 0 true .none [.xfail]).seq :=
  ⟨_, rfl, by decide⟩

/-- The hypotheses of the statements about a whole pass, for each chip. -/
theorem witness_pass (c : Chip) :
    (at' .idle 0 0 false .none (.request ⟨.encode, c.val⟩ :: (pairs 256 ++ []))).seq.mode = .idle ∧
    (at' .idle 0 0 false .none (.request ⟨.encode, c.val⟩ :: (pairs 256 ++ []))).schedule =
      .request ⟨.encode, c.val⟩ :: (pairs 256 ++ []) ∧
    (at' .idle 0 0 false .none (.request ⟨.encode, c.val⟩ :: (pairs 256 ++ []))).due = none := ⟨rfl, rfl, rfl⟩
theorem witness_partial_pass :
    255 < 256 ∧ (at' .idle 0 0 false .none (.request ⟨.encode, 2⟩ :: (pairs 255 ++ [.turn]))).schedule =
      .request ⟨.encode, (2 : Chip).val⟩ :: (pairs 255 ++ .turn :: []) := ⟨by decide, rfl⟩
theorem witness_full_pass (sched : List Event)
    (h : sched = .request ⟨.fullpass, 0⟩ :: (pairs 256 ++ .turn :: (pairs 256 ++ .turn :: (pairs 256 ++ [])))) :
    (at' .idle 0 0 false .none sched).seq.mode = .idle ∧ (at' .idle 0 0 false .none sched).due = none ∧
    (at' .idle 0 0 false .none sched).schedule =
      .request ⟨.fullpass, 0⟩ :: (pairs 256 ++ .turn :: (pairs 256 ++ .turn :: (pairs 256 ++ []))) := ⟨rfl, rfl, h⟩
theorem witness_fault_run :
    (∀ e ∈ (at' .fault 1 5 true .transportFailure [.turn, .ack]).schedule, e ≠ .rst) ∧
    ∃ t, stepN 2 (at' .fault 1 5 true .transportFailure [.turn, .ack]) = .next t ∧ t.seq.mode = .fault :=
  ⟨by decide, _, rfl, rfl⟩
theorem witness_wr :
    (Instr.wr 0x17F8 #v[0, 4, 0, 0x20, 0, 0, 0, 0]).wellFormed = true ∧ State.reset.seq.mode = .idle ∧
    (at' .busy 0 0 true .none []).seq.mode ≠ .idle := by decide
theorem witness_wr_chip_field_3 :
    (Instr.wr 0x1800 #v[1, 2, 3, 4, 5, 6, 7, 8]).wellFormed = true ∧
    (Instr.wr 0x1FF8 #v[1, 2, 3, 4, 5, 6, 7, 8]).wellFormed = true ∧ State.reset.seq.mode = .idle := by decide
theorem witness_ports_held :
    (at' .busy 2 255 true .none [.request ⟨.mux, 3 * 2 ^ 24⟩]).seq.pending = true ∧
    (∃ t, step (at' .busy 2 255 true .none [.request ⟨.mux, 3 * 2 ^ 24⟩]) = .next t ∧ t.seq.pending = true) ∧
    ∃ t, step (at' .busy 2 255 true .none [.xfail]) = .next t ∧ t.seq.pending = true :=
  ⟨rfl, ⟨_, rfl, rfl⟩, _, rfl, rfl⟩
theorem witness_encodable :
    (Instr.mux 3 0xFF 0xFF 0xFF).wellFormed = true ∧
    decode (encode (.mux 3 0xFF 0xFF 0xFF)) = .ok (.mux 3 0xFF 0xFF 0xFF) := by decide
theorem witness_invariant_step :
    ∃ t, step (at' .idle 0 0 false .none [.request ⟨.encode, 2⟩]) = .next t ∧ t.seq.mode = .busy := ⟨_, rfl, rfl⟩

/-- A state of a running pass that meets the invariant. -/
theorem witness_invariant_busy : Inv (at' .busy 2 0 false .none [.xfail]) where
  memory := by decide
  fields := ⟨by decide, by decide, by decide, by decide, by decide, by decide, by decide, by decide⟩
  pass := fun _ => ⟨2, rfl, ⟨[], rfl⟩, fun _ h => absurd h (Nat.not_lt_zero _)⟩
  outputs := fun _ h => absurd h List.not_mem_nil

theorem witness_invariant_idle : Inv (at' .idle 0 0 false .none [.request ⟨.encode, 2⟩]) where
  memory := by decide
  fields := ⟨by decide, by decide, by decide, by decide, by decide, by decide, by decide, by decide⟩
  pass := fun h => absurd h (by decide)
  outputs := fun _ h => absurd h List.not_mem_nil

theorem witness_over :
    runOver (at' .fault 0 0 false .invalidChipIndex [.turn]) ∧
    (∃ t, step (at' .fault 0 0 false .invalidChipIndex [.turn]) = .next t ∧ t.out = []) ∧
    runOver { at' .idle 0 255 false .none [] with out := [cmdOf tableA 0 255] } :=
  ⟨by decide, ⟨_, rfl, rfl⟩, by decide⟩

end Sys2Proof.Tests
end

/-! ### The opcode counter -/

namespace Sys2Proof.Machine

/-- An opcode other than the last is followed by the next number (R15). -/
theorem opcode_succ_toNat {op : Opcode} (h : op ≠ 255) : (op + 1).toNat = op.toNat + 1 := by
  have hne : op.toNat ≠ 255 := fun e => h (BitVec.eq_of_toNat_eq e)
  have hlt := op.isLt
  rw [BitVec.toNat_add, show (1 : Opcode).toNat = 1 from rfl]
  omega

/-- The acknowledgment of the last command ends the pass (R79). -/
theorem acknowledged_last {q : Seq} (h : q.op = 255) : acknowledged q = { q with pending := false, mode := .idle } :=
  if_pos h

/-- The acknowledgment of any other command makes the next opcode next (R78). -/
theorem acknowledged_notLast {q : Seq} (h : q.op ≠ 255) : acknowledged q = { q with pending := false, op := q.op + 1 } :=
  if_neg h

end Sys2Proof.Machine

/-! ### The invariant: what its parts say, and what each operation does to it -/

namespace Sys2Proof.Safety

open Sys2Proof.Machine

/-- In `IDLE` no cause stands (R14, R90). -/
theorem fieldsAgree.cause_of_idle {s : State} (h : fieldsAgree s) (hm : s.seq.mode = .idle) : s.seq.cause = .none :=
  h.causeIffFault.mpr (by simp [hm])

/-- In `IDLE` no command is pending (R14). -/
theorem fieldsAgree.pending_of_idle {s : State} (h : fieldsAgree s) (hm : s.seq.mode = .idle) :
    s.seq.pending = false :=
  Bool.eq_false_iff.mpr fun hp => h.pendingNotIdle hp hm

/-- In `IDLE` nothing is claimed of a pass. -/
theorem fieldsAgree.passAgrees_of_idle {s : State} (h : fieldsAgree s) (hm : s.seq.mode = .idle) : passAgrees s := by
  intro hpass
  simp [hm, h.cause_of_idle hm, h.pending_of_idle hm] at hpass

/-- `START(c)` for a legal chip puts `c` into the two bits of `seq.chip` (R76). -/
theorem chipField_toNat (c : Nat) (hc : c < 3) : (BitVec.ofNat 2 c).toNat = c := by
  rw [BitVec.toNat_ofNat]
  omega

/-- `out` ends with no commands at all, whatever it is. -/
theorem outEndsWith_zero (s : State) (c : Chip) : outEndsWith s c 0 := ⟨s.out, by simp⟩

/-- Appending the command of the next opcode takes `out` one command further (R72, R77). -/
theorem outEndsWith_succ {s t : State} {c : Chip} {op : Opcode} (h : outEndsWith s c op.toNat)
    (ht : t.out = s.out ++ [cmdOf Config.T c op]) : outEndsWith t c (op.toNat + 1) := by
  obtain ⟨before, hb⟩ := h
  exact ⟨before, by rw [ht, hb, encodeCmds_take_succ, List.append_assoc]⟩

theorem holdsEntries_zero (s : State) (c : Chip) : holdsEntries s c 0 :=
  fun _ h => absurd h (Nat.not_lt_zero _)

/-- The command of an opcode takes `L` one entry further (R78, R89): its own eight addresses hold its bytes, and the
addresses of lower opcodes lie below them. -/
theorem holdsEntries_succ {s t : State} {c : Chip} {op : Opcode} (h : holdsEntries s c op.toNat)
    (ht : t.L = s.L.writeBytes (baseAddrOf c op) (cmdOf Config.T c op).bytes.toList) :
    holdsEntries t c (op.toNat + 1) := by
  intro op' hop st
  have hst := st.isLt
  rw [ht, read?_after_cmdOf, logAddrOf_toNat]
  by_cases heq : op' = op
  · have hbyte : BitVec.ofNat 3 (c.val * 2048 + op.toNat * 8 + st.toNat) = st := by
      apply BitVec.eq_of_toNat_eq
      rw [BitVec.toNat_ofNat]
      omega
    rw [heq, if_pos (by omega), hbyte]
  · have hlt : op'.toNat < op.toNat := by
      have : op'.toNat ≠ op.toNat := fun e => heq (BitVec.eq_of_toNat_eq e)
      omega
    rw [if_neg (by omega), ← logAddrOf_toNat]
    exact h op' hlt st

section Preservation

variable {s : State}

/-- The invariant says nothing of the answer, the schedule and the moment. -/
theorem Inv.withEnvironment (h : Inv s) (a : Option Answer) (sched : List Event) (n : Nat) :
    Inv { s with answer := a, schedule := sched, moment := n } where
  memory := h.memory
  fields := { h.fields with }
  pass := h.pass
  outputs := h.outputs

theorem Inv.answerWith (h : Inv s) (a : Answer) : Inv (s.answerWith a) :=
  h.withEnvironment (some a) s.schedule s.moment

theorem Inv.taken (h : Inv s) (rest : List Event) : Inv (s.taken rest) :=
  h.withEnvironment s.answer rest (s.moment + 1)

theorem Inv.withPlan (h : Inv s) {p : List Nat} (hp : ∀ c ∈ p, c < 3) : Inv { s with plan := p } where
  memory := h.memory
  fields := { h.fields with planLegal := hp }
  pass := h.pass
  outputs := h.outputs

theorem Inv.withDue (h : Inv s) {d : Option Nat} (hd : ∀ c ∈ d, c ∈ s.raised) : Inv { s with due := d } where
  memory := h.memory
  fields := { h.fields with dueRaised := hd }
  pass := h.pass
  outputs := h.outputs

/-- In `IDLE` no pass rests on `L`, so any map in canonical form will do. -/
theorem Inv.withMemory_of_idle (h : Inv s) (hm : s.seq.mode = .idle) {m : Memory} (hw : m.wf) :
    Inv { s with L := m } where
  memory := hw
  fields := { h.fields with }
  pass := fieldsAgree.passAgrees_of_idle { h.fields with } hm
  outputs := h.outputs

theorem Inv.recordInvalidChip (h : Inv s) {c : Nat} (hc : 3 ≤ c) : Inv (s.recordInvalidChip c) where
  memory := h.memory
  fields :=
    { h.fields with
      recordRaised := fun d hd => List.mem_append_left _ (h.fields.recordRaised d hd)
      dueRaised := fun d hd => List.mem_append_left _ (h.fields.dueRaised d hd)
      raisedIllegal := fun d hd => by
        rcases List.mem_append.mp hd with hd | hd
        · exact h.fields.raisedIllegal d hd
        · exact List.mem_singleton.mp hd ▸ hc }
  pass := h.pass
  outputs := h.outputs

/-- Fault entry from `IDLE` for an index that has been raised (R94): with nothing pending there is no pass to speak of. -/
theorem Inv.enterInvalidChip (h : Inv s) (hm : s.seq.mode = .idle) {c : Nat} (hc : c ∈ s.raised) :
    Inv (s.enterFault .invalidChipIndex (some c)) where
  memory := h.memory
  fields :=
    { h.fields with
      causeIffFault := by simp
      chipWhileBusy := by simp
      pendingNotIdle := by simp
      recordIffInvalid := by simp
      recordRaised := by simpa using hc }
  pass := fun hpass => by simp [h.fields.pending_of_idle hm] at hpass
  outputs := h.outputs

theorem Inv.takeRaise (h : Inv s) : Inv s.takeRaise := by
  rcases s.takeRaise_cases with ⟨e, -⟩ | ⟨c, hm, -, hd, e⟩
  · rwa [e]
  · rw [e]
    exact (h.enterInvalidChip hm (h.fields.dueRaised c hd)).withDue (by simp)

/-- The first of two raises stays due, and both are among the indices raised. -/
theorem Inv.recordDue (h : Inv s) {c : Nat} (hc : 3 ≤ c) :
    Inv { s.recordInvalidChip c with due := s.due.or (some c) } := by
  have hrec := h.recordInvalidChip hc
  cases hd : s.due with
  | none => exact hrec.withDue (by simp)
  | some d => exact hrec.withDue (fun e he => hrec.fields.dueRaised e (hd ▸ he))

theorem Inv.enterRaised (h : Inv s) (hm : s.seq.mode = .idle) {c : Nat} (hc : 3 ≤ c) :
    Inv ((s.recordInvalidChip c).enterFault .invalidChipIndex (some c)) :=
  (h.recordInvalidChip hc).enterInvalidChip hm (by simp)

theorem Inv.raiseInvalidChip (h : Inv s) {c : Nat} (hc : 3 ≤ c) : Inv (s.raiseInvalidChip c) := by
  rcases s.raiseInvalidChip_cases c with ⟨hm, -, e⟩ | ⟨-, e⟩ | ⟨-, e⟩ <;> rw [e]
  · exact h.enterRaised hm hc
  · exact h.recordDue hc
  · exact h.recordInvalidChip hc

/-- A pass begins with none of its commands emitted and none acknowledged (R76). -/
theorem Inv.startLegal (h : Inv s) (hm : s.seq.mode = .idle) {c : Nat} (hc : c < 3) :
    Inv { s with seq := { s.seq with mode := .busy, chip := BitVec.ofNat 2 c, op := 0, pending := false } } where
  memory := h.memory
  fields :=
    { h.fields with
      causeIffFault := by simp [h.fields.cause_of_idle hm]
      chipWhileBusy := fun _ => by simpa [chipField_toNat c hc] using hc
      pendingNotIdle := by simp }
  pass := fun _ => ⟨⟨c, hc⟩, chipField_toNat c hc, outEndsWith_zero _ _, holdsEntries_zero _ _⟩
  outputs := h.outputs

theorem Inv.start (h : Inv s) (c : Nat) : Inv (start c s) := by
  rcases start_cases c s with e | ⟨hm, hc, e⟩ | ⟨hm, hc, e⟩ <;> rw [e]
  · exact h
  · exact h.startLegal hm hc
  · exact h.enterRaised hm hc

/-- Where a running pass stands, for the chip that the sequencer names. -/
theorem Inv.pass_of_busy (h : Inv s) (hm : s.seq.mode = .busy) {c : Chip} (hc : s.seq.chip.toNat = c.val) :
    outEndsWith s c (s.seq.op.toNat + if s.seq.pending then 1 else 0) ∧ holdsEntries s c s.seq.op.toNat := by
  obtain ⟨c', hc', hpass⟩ := h.pass (.inl hm)
  rwa [show c = c' from Fin.ext (hc.symm.trans hc')]

theorem Inv.emit (h : Inv s) : Inv (emit s) := by
  rcases emitWith_cases Config.T s with e | ⟨c, hm, hp, hc, e⟩ <;> rw [Machine.emit, e]
  · exact h
  · obtain ⟨hout, hL⟩ := h.pass_of_busy hm hc
    rw [hp] at hout
    exact {
      memory := h.memory
      fields := { h.fields with pendingNotIdle := fun _ => by simp [hm] }
      pass := fun _ => ⟨c, hc, outEndsWith_succ hout rfl, hL⟩
      outputs := fun k hk => by
        rcases List.mem_append.mp hk with hk | hk
        · exact h.outputs k hk
        · exact ⟨c, s.seq.op, List.mem_singleton.mp hk⟩ }

/-- The sequencer's fields still agree after an acknowledgment, whether it ends the pass or not (R78, R79). -/
theorem fieldsAgree.acknowledged (h : fieldsAgree s) (hm : s.seq.mode = .busy) (m : Memory) :
    fieldsAgree { s with L := m, seq := acknowledged s.seq } := by
  have hcause := h.causeIffFault.mpr (by simp [hm])
  by_cases hlast : s.seq.op = 255
  · rw [acknowledged_last hlast]
    exact { h with causeIffFault := by simp [hcause], chipWhileBusy := by simp, pendingNotIdle := by simp }
  · rw [acknowledged_notLast hlast]
    exact { h with pendingNotIdle := by simp }

theorem Inv.acknowledge (h : Inv s) : Inv (acknowledge s) := by
  rcases ackWith_cases Config.T s with e | ⟨c, hm, hp, hc, e⟩ <;> rw [Machine.acknowledge, e]
  · exact h
  · obtain ⟨hout, hL⟩ := h.pass_of_busy hm hc
    rw [hp] at hout
    have hfields := h.fields.acknowledged hm
      (s.L.writeBytes (baseAddrOf c s.seq.op) (cmdOf Config.T c s.seq.op).bytes.toList)
    refine { memory := Memory.wf_writeBytes _ _ _ h.memory, fields := hfields, pass := ?_, outputs := h.outputs }
    by_cases hlast : s.seq.op = 255
    · exact hfields.passAgrees_of_idle (by rw [acknowledged_last hlast])
    · intro _
      have hL' := holdsEntries_succ (t := { s with L := _, seq := acknowledged s.seq }) hL rfl
      refine ⟨c, ?_⟩
      simp only [acknowledged_notLast hlast, opcode_succ_toNat hlast] at hL' ⊢
      exact ⟨hc, hout, hL'⟩

/-- A transport failure leaves the pass where it stands (R93, R98). -/
theorem Inv.xfail (h : Inv s) : Inv (xfail s) := by
  rcases xfail_cases s with ⟨-, e⟩ | ⟨hm, e⟩ <;> rw [e]
  · exact h
  · exact {
      memory := h.memory
      fields :=
        { h.fields with
          causeIffFault := by simp
          chipWhileBusy := by simp
          pendingNotIdle := by simp
          recordIffInvalid := by simp
          recordRaised := by simp }
      pass := fun _ => h.pass (.inl hm)
      outputs := h.outputs }

/-- After `rst` the invariant holds whatever the state was before: it is that of a block with nothing emitted and nothing
written (R102). -/
theorem inv_resetEvent (s : State) : Inv s.resetEvent where
  memory := Memory.wf_nil
  fields := by constructor <;> simp
  pass := fun hpass => by simp at hpass
  outputs := by simp [outLegal]

theorem Inv.turn (h : Inv s) : Inv (turn s) := by
  rcases turn_cases s with e | ⟨-, e⟩ | ⟨c, rest, -, hp, e⟩ <;> rw [e]
  · exact h
  · exact h.emit
  · have hrest : ∀ d ∈ rest, d < 3 := fun d hd => h.fields.planLegal d (hp ▸ List.mem_cons_of_mem c hd)
    exact (h.withPlan hrest).start c

theorem Inv.exec (h : Inv s) {i : Instr} {t : State} (ht : exec i s = .next t) : Inv t := by
  rcases exec_cases i s with ⟨a, e⟩ | ⟨c, hc, e⟩ | ⟨c, e⟩ | ⟨-, e⟩ | ⟨a, addr, bs, hm, e⟩ <;> rw [e] at ht <;> cases ht
  · exact h.answerWith a
  · exact h.raiseInvalidChip hc
  · exact h.start c
  · exact (h.withPlan (p := [1, 2]) (by simp)).start 0
  · exact (h.answerWith a).withMemory_of_idle hm (Memory.wf_writeBytes _ _ _ h.memory)

theorem Inv.step (h : Inv s) {t : State} (ht : step s = .next t) : Inv t := by
  have hraise := h.takeRaise
  rcases step_cases s with ⟨-, -, e⟩ | ⟨-, -, e⟩ | ⟨rest, -, e⟩ | ⟨rest, -, e⟩ | ⟨rest, -, e⟩ | ⟨rest, -, e⟩ |
    ⟨r, rest, i, -, -, e⟩ | ⟨r, rest, why, -, -, e⟩ <;> rw [e] at ht
  · cases ht; exact hraise
  · cases ht; exact (hraise.taken _).turn
  · cases ht; exact (hraise.taken rest).turn
  · cases ht; exact (hraise.taken rest).acknowledge
  · cases ht; exact (hraise.taken rest).xfail
  · cases ht; exact inv_resetEvent _
  · exact (hraise.taken rest).exec ht
  · cases ht

end Preservation

/-- Settles O57. -/
theorem invariantAtReset : Obligations.InvariantAtReset where
  memory := Memory.wf_nil
  fields := by constructor <;> simp [State.reset]
  pass := fun hpass => by simp [State.reset] at hpass
  outputs := by simp [outLegal, State.reset]

/-- Settles O58: every operation of the model keeps the invariant (`Inv.exec`, `Inv.turn`, `Inv.acknowledge`, `Inv.xfail`,
`inv_resetEvent`), and a step is one of them after a due raise is entered (`Inv.takeRaise`). -/
theorem stepKeepsInvariant : Obligations.StepKeepsInvariant :=
  fun _ _ h ht => h.step ht

end Sys2Proof.Safety

/-! ### Combinational operations, the opcode counter, reset, signals and status ports -/

namespace Sys2Proof.Machine

open Sys2Proof.Safety

/-- A combinational operation answers or raises `InvalidChipIndex`, and does nothing else (R13, R61, R69). -/
theorem exec_combinational (i : Instr) (s : State) (h : combinational i = true) :
    (∃ a, exec i s = .next (s.answerWith a)) ∨ (∃ c, 3 ≤ c ∧ exec i s = .next (s.raiseInvalidChip c)) := by
  have forChip : ∀ (c : Nat) (f : Chip → Answer), exec i s = answerForChip c f s →
      (∃ a, exec i s = .next (s.answerWith a)) ∨ (∃ c, 3 ≤ c ∧ exec i s = .next (s.raiseInvalidChip c)) :=
    fun c f e => e ▸ (answerForChip_cases c f s).imp_right fun hc => ⟨c, hc⟩
  cases i with
  | lookup op st => exact .inl ⟨_, rfl⟩
  | split cw => exact .inl ⟨_, rfl⟩
  | join p2 p1 p0 => exact .inl ⟨_, rfl⟩
  | romaddr op st => exact .inl ⟨_, rfl⟩
  | mux sel p0 p1 p2 => exact forChip sel _ rfl
  | plane c cw => exact forChip c _ rfl
  | baseaddr c op => exact forChip c _ rfl
  | logaddr c op st => exact forChip c _ rfl
  | romimage c a => exact forChip c _ rfl
  | encode0 => cases h
  | encode1 => cases h
  | encode2 => cases h
  | reservedChip3 => cases h
  | fullpass => cases h
  | wr addr bytes => cases h

/-- Raising `InvalidChipIndex` moves the mode, the cause and the records of faults only, and shows no result (R13, R94). -/
theorem State.raiseInvalidChip_frame (s : State) (c : Nat) :
    (s.raiseInvalidChip c).out = s.out ∧ (s.raiseInvalidChip c).L = s.L ∧
    (s.raiseInvalidChip c).seq.chip = s.seq.chip ∧ (s.raiseInvalidChip c).seq.op = s.seq.op ∧
    (s.raiseInvalidChip c).seq.pending = s.seq.pending ∧ (s.raiseInvalidChip c).plan = s.plan ∧
    (s.raiseInvalidChip c).schedule = s.schedule ∧ (s.raiseInvalidChip c).moment = s.moment ∧
    (s.raiseInvalidChip c).answer = none := by
  rcases s.raiseInvalidChip_cases c with ⟨-, -, e⟩ | ⟨-, e⟩ | ⟨-, e⟩ <;> simp [e]

/-- Settles O19: an answer changes the field `answer` alone, and a raise has the frame of `State.raiseInvalidChip_frame`. -/
theorem combinationalWritesNothing : Obligations.CombinationalWritesNothing := by
  intro i s t hi ht
  rcases exec_combinational i s hi with ⟨a, e⟩ | ⟨c, -, e⟩ <;> rw [e] at ht <;> cases ht
  · simp
  · obtain ⟨hout, hL, hchip, hop, hpending, hplan, hschedule, hmoment, hanswer⟩ := s.raiseInvalidChip_frame c
    exact ⟨hout, fun a => by rw [hL], hchip, hop, hpending, hplan, hschedule, hmoment, by simp [hanswer]⟩

/-- A turn in `BUSY` is `EMIT` or nothing, so the sequencer stays at its chip and opcode (R77). -/
theorem turn_busy_position (s : State) (hm : s.seq.mode = .busy) :
    (turn s).seq.chip = s.seq.chip ∧ (turn s).seq.op = s.seq.op := by
  rcases turn_cases s with e | ⟨-, e⟩ | ⟨-, -, hi, -⟩
  · simp [e]
  · rw [e, emit]
    rcases emitWith_cases Config.T s with e | ⟨c, -, -, -, e⟩ <;> simp [e]
  · rw [hm] at hi
    cases hi

/-- While the pass goes on, an acknowledgment is not enabled or counts the opcode up by one (R78, R79). -/
theorem acknowledge_busy_position (s : State) (ht : (acknowledge s).seq.mode = .busy) :
    (acknowledge s).seq.chip = s.seq.chip ∧
    ((acknowledge s).seq.op = s.seq.op ∨
      ((acknowledge s).seq.op.toNat = s.seq.op.toNat + 1 ∧ s.seq.pending = true)) := by
  rcases ackWith_cases Config.T s with e | ⟨c, -, hp, -, e⟩ <;> rw [acknowledge, e] at ht ⊢
  · exact ⟨rfl, .inl rfl⟩
  · by_cases hlast : s.seq.op = 255
    · simp [acknowledged_last hlast] at ht
    · rw [acknowledged_notLast hlast]
      exact ⟨rfl, .inr ⟨opcode_succ_toNat hlast, hp⟩⟩

/-- Settles O41: only `ack` moves the counter while the pass goes on; `xfail` and `rst` end the pass. -/
theorem opcodeCounterNeverSkips : Obligations.OpcodeCounterNeverSkips := by
  intro s t hm hstep ht
  rw [step_of_notIdle s (by simp [hm])] at hstep
  rcases stepEvent_cases s with ⟨-, -, e⟩ | ⟨-, -, e⟩ | ⟨rest, -, e⟩ | ⟨rest, hs, e⟩ | ⟨rest, -, e⟩ | ⟨rest, -, e⟩ |
    ⟨r, rest, i, -, -, e⟩ | ⟨r, rest, why, -, -, e⟩ <;> rw [e] at hstep
  · cases hstep; exact ⟨rfl, .inl rfl⟩
  · cases hstep; exact (turn_busy_position (s.taken _) hm).imp_right .inl
  · cases hstep; exact (turn_busy_position (s.taken rest) hm).imp_right .inl
  · cases hstep
    obtain ⟨hchip, hop⟩ := acknowledge_busy_position (s.taken rest) ht
    exact ⟨hchip, hop.imp_right fun ⟨hsucc, hp⟩ => ⟨hsucc, hp, rest, hs⟩⟩
  · cases hstep
    rcases xfail_cases (s.taken rest) with ⟨hn, -⟩ | ⟨-, e⟩
    · exact absurd hm hn
    · simp [e] at ht
  · cases hstep; simp at ht
  · obtain ⟨hseq, -⟩ := exec_notIdle i (s.taken rest) t (by simp [hm]) hstep
    exact ⟨by rw [hseq], .inl (by rw [hseq])⟩
  · cases hstep

/-- Settles O4. -/
theorem resetLeavesStatedValues : Obligations.ResetLeavesStatedValues :=
  ⟨rfl, rfl, rfl, rfl, Memory.read?_nil⟩

/-- Bit `j` of the byte of chip `c` is bit `8c + j` of the word (R58). -/
theorem planeByte_getLsbD (c : Chip) (cw : CW) (j : Nat) (hj : j < 8) :
    (planeByte c cw).getLsbD j = cw.getLsbD (8 * c.val + j) := by
  rw [BitVec.getLsbD, planeByte_toNat, show 256 = 2 ^ 8 from rfl, Nat.testBit_mod_two_pow, Nat.testBit_div_two_pow]
  simp [hj, BitVec.getLsbD, Nat.add_comm j]

/-- The word of a signal has the bit of its position and no other (R7). -/
theorem signalWord_getLsbD (k : Fin 24) (n : Nat) : (signalWord k).getLsbD n = decide (n = k.val) := by
  have hk := k.isLt
  rw [Bool.eq_iff_iff]
  simp [signalWord]
  omega

/-- Settles O16: bit `j` of plane `c` is bit `8c + j` of the word, which is set exactly if `c` and `j` are the plane and the
bit of the position. -/
theorem signalShowsInItsPlane : Obligations.SignalShowsInItsPlane := by
  intro k c
  apply BitVec.eq_of_getLsbD_eq
  intro j hj
  rw [planeByte_getLsbD c _ j hj, signalWord_getLsbD]
  have hplane : c = signalPlane k ↔ c.val = k.val / 8 := Fin.ext_iff
  by_cases hc : c = signalPlane k
  · have hval := hplane.mp hc
    rw [if_pos hc, Bool.eq_iff_iff]
    simp [signalBit, hj]
    omega
  · have hval : c.val ≠ k.val / 8 := fun e => hc (hplane.mpr e)
    simp [hc]
    omega

/-- The modes have the codes 0, 1 and 2, each its own (R14). -/
theorem Mode.code_iff (m : Mode) :
    (m.code = 0 ↔ m = .idle) ∧ (m.code = 1 ↔ m = .busy) ∧ (m.code = 2 ↔ m = .fault) ∧ m.code ≠ 3 := by
  cases m <;> decide

/-- The causes have the codes 0, 1 and 2, each its own (R90). -/
theorem Cause.code_iff (c : Cause) :
    (c.code = 0 ↔ c = .none) ∧ (c.code = 1 ↔ c = .invalidChipIndex) ∧ (c.code = 2 ↔ c = .transportFailure) ∧
      c.code ≠ 3 := by
  cases c <;> decide

theorem busyPort_iff (s : State) : busyPort s = true ↔ s.seq.mode = .busy := beq_iff_eq

theorem faultPort_iff (s : State) : faultPort s = true ↔ s.seq.mode = .fault := beq_iff_eq

/-- Settles O54. -/
theorem statusPortsShowSequencer : Obligations.StatusPortsShowSequencer := by
  intro s
  obtain ⟨-, hbusy, hfault, -⟩ := s.seq.mode.code_iff
  exact ⟨s.seq.mode.code_iff, (busyPort_iff s).trans hbusy.symm, (faultPort_iff s).trans hfault.symm, Iff.rfl,
    s.seq.cause.code_iff⟩

end Sys2Proof.Machine

/-! ### Segments, rewriting a command, and the presented instruction -/

namespace Sys2Proof.Safety

open Sys2Proof.Machine

/-- An address lies in at most one chip's segment (R27, R28). -/
theorem inSegment_unique {c c' : Chip} {a : Nat} (h : inSegment c a) (h' : inSegment c' a) : c' = c := by
  have hval : c'.val = c.val := by omega
  exact Fin.ext hval

/-- The eight addresses from a base address on lie in the chip's segment (R24, R27). -/
theorem inSegment_baseAddrOf (c : Chip) (op : Opcode) {i : Nat} (hi : i < 8) :
    inSegment c ((baseAddrOf c op).toNat + i) := by
  have hop := op.isLt
  rw [baseAddrOf_toNat]
  constructor <;> omega

/-- Settles O25: an address of the command lies in its chip's segment (`inSegment_baseAddrOf`), and an address has one segment
only (`inSegment_unique`). -/
theorem commandsStayInTheirSegment : Obligations.CommandsStayInTheirSegment := by
  intro T c op
  rw [cmdOf_addr]
  refine ⟨?aligned, fun i hi => ?segment, fun st => ?planes⟩
  case aligned =>
    rw [baseAddrOf_toNat]
    omega
  case segment =>
    have hin := inSegment_baseAddrOf c op hi
    exact ⟨hin, fun c' hne hin' => hne (inSegment_unique hin hin')⟩
  case planes =>
    simp only [logAddrOf_toNat, Fin.val_zero, Fin.val_one, Fin.val_two]
    omega

end Sys2Proof.Safety

namespace Sys2Proof.Machine

/-- Bytes written twice at one address leave the map they leave when written once, if they stay inside the 16-bit field
(R26). -/
theorem Memory.writeBytes_twice (m : Memory) (a : LogAddr) (bs : List Byte) (hm : m.wf)
    (h : a.toNat + bs.length ≤ 2 ^ 16) : (m.writeBytes a bs).writeBytes a bs = m.writeBytes a bs := by
  have hw := m.wf_writeBytes a bs hm
  apply Memory.ext_of_read _ _ (Memory.wf_writeBytes _ a bs hw) hw
  intro n
  rw [Memory.read?_writeBytes _ a bs n h]
  split
  · next hin => rw [Memory.read?_writeBytes _ a bs n h, if_pos hin]
  · rfl

/-- Settles O30: the eight bytes at a multiple of 8 stay inside the 16-bit field, so `Memory.writeBytes_twice` applies. -/
theorem rewritingIsIdempotent : Obligations.RewritingIsIdempotent := by
  intro m k hm haligned
  have hlt := k.addr.isLt
  exact m.writeBytes_twice _ _ hm (by rw [Vector.length_toList]; omega)

/-- A presented word that decodes to an instruction is taken off the schedule and run (R32, R40). -/
theorem stepEvent_request {s : State} {r : Request} {rest : List Event} {i : Instr}
    (hs : s.schedule = .request r :: rest) (hd : decode r = .ok i) : stepEvent s = exec i (s.taken rest) := by
  simp [stepEvent, hs, hd]

/-- Settles O1: entering a due raise leaves the schedule and the moment alone, so `stepEvent_request` gives the step. -/
theorem presentedInstructionRuns : Obligations.PresentedInstructionRuns := by
  intro s r rest i hs hd
  rw [step, stepEvent_request (s.takeRaise_schedule.trans hs) hd, State.taken, State.takeRaise_moment]

end Sys2Proof.Machine

/-! ### Steps that run a presented word, and steps that stop -/

namespace Sys2Proof.Machine

/-- Whether a raise that is due is entered does not depend on what is scheduled. -/
theorem State.takeRaise_withSchedule (s : State) (events : List Event) :
    ({ s with schedule := events } : State).takeRaise = { s.takeRaise with schedule := events } := by
  unfold State.takeRaise
  dsimp only
  split <;> rfl

/-- A bare word reads as what it decodes to at the port the table gives it (log entry 1). -/
theorem decodeTableWord_eq_some {nbits w : Nat} {i : Instr} :
    decodeTableWord nbits w = some i ↔ decode (tableRequest nbits w) = .ok i := by
  unfold decodeTableWord
  split <;> simp [*]

/-- Settles O2: the placed word is a presented word (`presentedInstructionRuns`), and taking it off leaves the schedule that
stood before. -/
theorem tableWordRunsNext : Obligations.TableWordRunsNext := by
  intro s nbits w i h
  rw [presentedInstructionRuns (s.withFetchWord nbits w) _ s.schedule i rfl (decodeTableWord_eq_some.mp h),
    State.withFetchWord, State.takeRaise_withSchedule, ← State.takeRaise_schedule s]

/-- Settles O3, by evaluating the decoder on the ten words. -/
theorem formatWordsDecode : Obligations.FormatWordsDecode := by
  unfold Obligations.FormatWordsDecode
  decide

/-- Every instruction has a next state in every state: the spec's faults are states (R94). -/
theorem exec_next (i : Instr) (s : State) : ∃ t, exec i s = .next t := by
  rcases exec_cases i s with ⟨a, e⟩ | ⟨c, -, e⟩ | ⟨c, e⟩ | ⟨-, e⟩ | ⟨a, addr, bs, -, e⟩ <;> exact ⟨_, e⟩

/-- A step has a next state, or it refuses the presented word for the reason the decoder gives. -/
theorem step_next_or_refused (s : State) :
    (∃ t, step s = .next t) ∨
    ∃ r rest why, s.schedule = .request r :: rest ∧ decode r = .error why ∧ step s = .refused (.noInstruction why) := by
  rcases step_cases s with ⟨-, -, e⟩ | ⟨-, -, e⟩ | ⟨rest, -, e⟩ | ⟨rest, -, e⟩ | ⟨rest, -, e⟩ | ⟨rest, -, e⟩ |
    ⟨r, rest, i, -, -, e⟩ | hrefused
  · exact .inl ⟨_, e⟩
  · exact .inl ⟨_, e⟩
  · exact .inl ⟨_, e⟩
  · exact .inl ⟨_, e⟩
  · exact .inl ⟨_, e⟩
  · exact .inl ⟨_, e⟩
  · exact .inl (e ▸ exec_next i _)
  · exact .inr hrefused

/-- Settles O7. -/
theorem stepStopsOnlyOnMalformedWords : Obligations.StepStopsOnlyOnMalformedWords := by
  intro s
  rcases step_next_or_refused s with ⟨t, e⟩ | ⟨r, rest, why, hs, hd, e⟩ <;> rw [e]
  · exact ⟨nofun, nofun⟩
  · refine ⟨nofun, fun why' h => ?_⟩
    cases h
    exact ⟨r, rest, why, hs, hd, rfl⟩

end Sys2Proof.Machine

/-! ### The fields of a word, and a command's bytes as a number -/

namespace Sys2Proof

@[simp] theorem bitField_toNat (w lo n : Nat) : (bitField w lo n).toNat = w / 2 ^ lo % 2 ^ n :=
  BitVec.toNat_ofNat _ _

/-- A field of a word is a value exactly if the word has the value's bits there, which is a claim of arithmetic (R5). -/
theorem bitField_eq_iff {w lo n : Nat} {x : BitVec n} : bitField w lo n = x ↔ w / 2 ^ lo % 2 ^ n = x.toNat := by
  rw [← BitVec.toNat_inj, bitField_toNat]

/-- The digit of weight `256 ^ i` of a number given by its bytes, the lowest one first, is byte `i`. -/
theorem ofDigits_byte (bs : List Byte) (i : Nat) (h : i < bs.length) :
    Nat.ofDigits 256 (bs.map BitVec.toNat) / 256 ^ i % 256 = bs[i].toNat := by
  induction bs generalizing i with
  | nil => cases h
  | cons b bs ih =>
    have hb := b.isLt
    rw [List.map_cons, Nat.ofDigits_cons]
    cases i with
    | zero =>
      rw [List.getElem_cons_zero]
      omega
    | succ i =>
      rw [Nat.pow_succ', ← Nat.div_div_eq_div_mul, Nat.add_mul_div_left _ _ (by decide), Nat.div_eq_of_lt hb, Nat.zero_add,
        ih i (Nat.lt_of_succ_lt_succ h), List.getElem_cons_succ]

/-- The data field of a `CMD` word has the last byte lowest (R37). -/
theorem packBytes_eq_ofDigits (b : Vector Byte 8) :
    packBytes b = Nat.ofDigits 256 (b.toList.reverse.map BitVec.toNat) := by
  rw [packBytes, Nat.ofDigits_eq_foldr, List.foldr_map, List.foldr_reverse]
  congr
  funext acc x
  simp [Nat.add_comm, Nat.mul_comm]

/-- Byte `i` of a command stands at bits `63 - 8i` to `56 - 8i` of the data field (R37). -/
theorem packBytes_byte (b : Vector Byte 8) (i : Nat) (h : i < 8) :
    packBytes b / 2 ^ (56 - 8 * i) % 256 = b[i].toNat := by
  have hexp : 56 - 8 * i = 8 * (7 - i) := by omega
  rw [packBytes_eq_ofDigits, hexp, Nat.pow_mul, ofDigits_byte _ (7 - i) (by simp; omega)]
  simp [List.getElem_reverse, show 7 - (7 - i) = i by omega]

theorem cmdBytes_getElem (w i : Nat) (h : i < 8) : (cmdBytes w)[i] = bitField w (56 - 8 * i) 8 := by
  interval_cases i <;> rfl

/-- The bytes read from the data field are the bytes packed into it, whatever stands above it (R37). -/
theorem cmdBytes_packBytes (a : Nat) (b : Vector Byte 8) : cmdBytes (a * 2 ^ 64 + packBytes b) = b := by
  ext1 i hi
  have habove : (a * 2 ^ 64 + packBytes b) / 2 ^ (56 - 8 * i) % 2 ^ 8 = packBytes b / 2 ^ (56 - 8 * i) % 256 := by
    interval_cases i <;> omega
  rw [cmdBytes_getElem _ i hi, bitField_eq_iff, habove, packBytes_byte b i hi]

/-- The low 64 bits of a word are its eight data bytes packed again (R37). -/
theorem packBytes_cmdBytes (w : Nat) : packBytes (cmdBytes w) = w % 2 ^ 64 := by
  simp only [packBytes, cmdBytes, Vector.toList_mk, List.foldl_cons, List.foldl_nil, bitField_toNat]
  omega

end Sys2Proof

/-! ### The decoder and the encoder are inverse to each other -/

namespace Sys2Proof

/-- A word decodes exactly if it fits the width of the format and has the fixed bits (R33 to R37). -/
theorem decode_ok_iff {r : Request} {i : Instr} :
    decode r = .ok i ↔ r.word < 2 ^ r.operation.width ∧ decodeFitting r.operation r.word = .ok i := by
  unfold decode
  split <;> simp [*]

/-- A format with fixed bits admits the words that have them, and each of those is one instruction. -/
theorem fixedBits_ok_iff {p : Prop} [Decidable p] {why : Reject} {i j : Instr} :
    (if p then Except.ok i else Except.error why) = .ok j ↔ p ∧ i = j := by
  split <;> simp [*]

/-- The per-instruction family `Laws.WordFits` covers every instruction. -/
theorem encode_fits (i : Instr) : Laws.WordFits.Statement i := by
  cases i with
  | lookup op s => exact Laws.WordFits.lookup op s
  | split cw => exact Laws.WordFits.split cw
  | mux sel p0 p1 p2 => exact Laws.WordFits.mux sel p0 p1 p2
  | plane c cw => exact Laws.WordFits.plane c cw
  | join p2 p1 p0 => exact Laws.WordFits.join p2 p1 p0
  | romaddr op s => exact Laws.WordFits.romaddr op s
  | baseaddr c op => exact Laws.WordFits.baseaddr c op
  | logaddr c op s => exact Laws.WordFits.logaddr c op s
  | romimage c a => exact Laws.WordFits.romimage c a
  | encode0 => exact Laws.WordFits.encode0
  | encode1 => exact Laws.WordFits.encode1
  | encode2 => exact Laws.WordFits.encode2
  | reservedChip3 => exact Laws.WordFits.reservedChip3
  | fullpass => exact Laws.WordFits.fullpass
  | wr addr bytes => exact Laws.WordFits.wr addr bytes

/-- In the word of a well-formed instruction every field stands where the decoder of its operation reads it (R33 to R37):
each field is a quotient and remainder of the word (`bitField_eq_iff`). -/
theorem decodeFitting_encode (i : Instr) (h : i.wellFormed = true) :
    decodeFitting (encode i).operation (encode i).word = .ok i := by
  cases i
  case lookup | split | mux | plane | join | romaddr | romimage =>
    simp only [encode, decodeFitting, Except.ok.injEq, Instr.lookup.injEq, Instr.split.injEq, Instr.mux.injEq,
      Instr.plane.injEq, Instr.join.injEq, Instr.romaddr.injEq, Instr.romimage.injEq, bitField_eq_iff]
    omega
  case baseaddr | logaddr =>
    simp only [Instr.wellFormed, fitsChipPort, decide_eq_true_eq] at h
    apply fixedBits_ok_iff.mpr
    simp only [encode, Instr.baseaddr.injEq, Instr.logaddr.injEq, bitField_eq_iff]
    omega
  case wr addr bytes =>
    have hbytes := Laws.WordFits.packBytes_lt bytes
    simp only [Instr.wellFormed, topBitsZero, stepBitsZero, Bool.and_eq_true, beq_iff_eq] at h
    apply fixedBits_ok_iff.mpr
    simp only [encode, Instr.wr.injEq, cmdBytes_packBytes, bitField_eq_iff, and_true]
    omega
  case encode0 | encode1 | encode2 | reservedChip3 | fullpass => rfl

/-- Settles O55: the word fits its format (`encode_fits`), and its fields are the operands (`decodeFitting_encode`). -/
theorem decodeOfEncode : Obligations.DecodeOfEncode :=
  fun i h => decode_ok_iff.mpr ⟨encode_fits i h, decodeFitting_encode i h⟩

/-- The `REQ` word is the chip index it asks for, or the illegal value 3 (R36). -/
theorem encode_decodeReq (w : Nat) (h : w < 4) :
    (decodeReq w).wellFormed = true ∧ encode (decodeReq w) = ⟨.encode, w⟩ := by
  interval_cases w <;> decide

/-- A word of a format is its fields put together again: the width leaves no bit above them, and the bits between them are
the fixed ones (R33 to R37). -/
theorem encode_decodeFitting (op : Operation) (w : Nat) (i : Instr) (hw : w < 2 ^ op.width)
    (h : decodeFitting op w = .ok i) : i.wellFormed = true ∧ encode i = ⟨op, w⟩ := by
  cases op
  case lookup | split | mux | plane | join | romaddr | romimage =>
    cases h
    simp only [Operation.width, Instr.wellFormed, fitsChipPort, decide_eq_true_eq, encode, bitField_toNat,
      Request.mk.injEq, true_and] at hw ⊢
    omega
  case baseaddr | logaddr | wr =>
    obtain ⟨hfixed, rfl⟩ := fixedBits_ok_iff.mp h
    simp only [Operation.width, Instr.wellFormed, fitsChipPort, topBitsZero, stepBitsZero, decide_eq_true_eq,
      Bool.and_eq_true, beq_iff_eq, encode, packBytes_cmdBytes, bitField_toNat, Request.mk.injEq, true_and] at hw ⊢
    omega
  case encode =>
    cases h
    exact encode_decodeReq w hw
  case fullpass =>
    obtain ⟨rfl, rfl⟩ := fixedBits_ok_iff.mp h
    exact ⟨rfl, rfl⟩

/-- Settles O56. -/
theorem encodeOfDecode : Obligations.EncodeOfDecode := by
  intro r i h
  obtain ⟨hw, hfit⟩ := decode_ok_iff.mp h
  exact encode_decodeFitting r.operation r.word i hw hfit

end Sys2Proof

/-! ### The text of a command -/

namespace Sys2Proof.Machine

/-- The seven characters before the bytes of a command: the letters, a space and the address (R38). -/
def headChars (upper : Bool) (addr : LogAddr) : List Byte := [0x57, 0x52, 0x20] ++ hex4 upper addr

/-- The three characters that stand for one byte: a space and two digits (R38). -/
def byteChars (upper : Bool) (b : Byte) : List Byte := 0x20 :: hex2 upper b

theorem headChars_length (upper : Bool) (addr : LogAddr) : (headChars upper addr).length = 7 := rfl

theorem byteChars_length (upper : Bool) (b : Byte) : (byteChars upper b).length = 3 := rfl

theorem flatMap_byteChars_length (upper : Bool) (bytes : Vector Byte 8) :
    (bytes.toList.flatMap (byteChars upper)).length = 24 := by
  simp [List.length_flatMap, byteChars_length]

/-- The text in its parts: 7 characters up to the address, 24 for the bytes, 2 at the end, and the end-of-command bytes
(R38). -/
theorem wrTextWith_eq (upper : Bool) (eol : List Byte) (addr : LogAddr) (bytes : Vector Byte 8) :
    wrTextWith upper eol addr bytes =
      headChars upper addr ++ (bytes.toList.flatMap (byteChars upper) ++ ([0x20, 0x21] ++ eol)) := by
  simp only [wrTextWith, headChars, List.append_assoc]
  rfl

/-- Digit `j` of the address stands for its bits `15 - 4j` to `12 - 4j` (R38, R83). -/
theorem headChars_digit (upper : Bool) (addr : LogAddr) (j : Nat) (h : j < 4) :
    (headChars upper addr)[3 + j]? = some (hexDigit upper (addr.extractLsb' (12 - 4 * j) 4)) := by
  interval_cases j <;> rfl

/-- Character `k` of the group of byte `i` stands at `3i + k` of the groups. -/
theorem flatMap_byteChars_getElem? (upper : Bool) (bs : List Byte) (i k : Nat) (hi : i < bs.length) (hk : k < 3) :
    (bs.flatMap (byteChars upper))[3 * i + k]? = (byteChars upper bs[i])[k]? := by
  induction bs generalizing i with
  | nil => cases hi
  | cons b bs ih =>
    have hb := byteChars_length upper b
    rw [List.flatMap_cons]
    cases i with
    | zero => simp [List.getElem?_append_left (hb ▸ hk)]
    | succ i =>
      have hpos : 3 * (i + 1) + k - 3 = 3 * i + k := by omega
      rw [List.getElem?_append_right (by omega), hb, hpos, ih i (Nat.lt_of_succ_lt_succ hi), List.getElem_cons_succ]

theorem wrTextWith_head (upper : Bool) (eol : List Byte) (addr : LogAddr) (bytes : Vector Byte 8) (n : Nat) (h : n < 7) :
    (wrTextWith upper eol addr bytes)[n]? = (headChars upper addr)[n]? := by
  rw [wrTextWith_eq]
  exact List.getElem?_append_left h

theorem wrTextWith_byte (upper : Bool) (eol : List Byte) (addr : LogAddr) (bytes : Vector Byte 8) (i : Fin 8) (k : Nat)
    (h : k < 3) : (wrTextWith upper eol addr bytes)[7 + k + 3 * i.val]? = (byteChars upper bytes[i])[k]? := by
  have hlen := flatMap_byteChars_length upper bytes
  have hpos : 7 + k + 3 * i.val - 7 = 3 * i.val + k := by omega
  rw [wrTextWith_eq, List.getElem?_append_right (by rw [headChars_length]; omega), headChars_length, hpos,
    List.getElem?_append_left (by omega), flatMap_byteChars_getElem? _ _ _ _ (by simp) h]
  rfl

theorem wrTextWith_drop (upper : Bool) (eol : List Byte) (addr : LogAddr) (bytes : Vector Byte 8) :
    (wrTextWith upper eol addr bytes).drop 31 = [0x20, 0x21] ++ eol := by
  rw [wrTextWith_eq, ← List.append_assoc]
  exact List.drop_left' (by rw [List.length_append, headChars_length, flatMap_byteChars_length])

theorem wrTextWith_length (upper : Bool) (eol : List Byte) (addr : LogAddr) (bytes : Vector Byte 8) :
    (wrTextWith upper eol addr bytes).length = 33 + eol.length := by
  simp only [wrTextWith_eq, List.length_append, headChars_length, flatMap_byteChars_length, List.length_cons,
    List.length_nil]
  omega

/-- Settles O49: the head (`wrTextWith_head`), the eight groups (`wrTextWith_byte`) and what follows them
(`wrTextWith_drop`), character by character. -/
theorem commandTextLayout : Obligations.CommandTextLayout := by
  refine ⟨fun upper eol addr bytes => ?text, by decide⟩
  have htail (n : Nat) : (wrTextWith upper eol addr bytes)[31 + n]? = ([0x20, 0x21] ++ eol)[n]? := by
    rw [← List.getElem?_drop, wrTextWith_drop]
  refine ⟨wrTextWith_length upper eol addr bytes, ?ending, ?letters, fun j hj => ?digit, fun i => ?byte, htail 0, htail 1⟩
  case ending => rw [← List.drop_drop (i := 2) (j := 31), wrTextWith_drop]; rfl
  case letters => rw [wrTextWith_eq]; rfl
  case digit => rw [wrTextWith_head _ _ _ _ _ (by omega), headChars_digit upper addr j hj]
  case byte =>
    have hbyte := wrTextWith_byte upper eol addr bytes i
    exact ⟨hbyte 0 (by decide), hbyte 1 (by decide), hbyte 2 (by decide)⟩

end Sys2Proof.Machine

/-! ### The command at the ports -/

namespace Sys2Proof.Machine

theorem State.takeRaise_pending (s : State) : s.takeRaise.seq.pending = s.seq.pending := by
  rcases s.takeRaise_cases with ⟨e, -⟩ | ⟨c, -, -, -, e⟩ <;> rw [e]
  rfl

theorem State.takeRaise_inFlight (s : State) : inFlight? s.takeRaise = inFlight? s := by
  rcases s.takeRaise_cases with ⟨e, -⟩ | ⟨c, -, -, -, e⟩ <;> rw [e]
  rfl

theorem State.raiseInvalidChip_inFlight (s : State) (c : Nat) : inFlight? (s.raiseInvalidChip c) = inFlight? s := by
  obtain ⟨-, -, hchip, hop, hpending, -⟩ := s.raiseInvalidChip_frame c
  exact inFlight?_congr _ _ hpending hchip hop

theorem xfail_inFlight (s : State) : inFlight? (xfail s) = inFlight? s := by
  rcases xfail_cases s with ⟨-, e⟩ | ⟨-, e⟩ <;> rw [e]
  rfl

/-- A `START` after which a command is pending has started no pass, so it leaves the command presented (R76). -/
theorem start_inFlight (c : Nat) (s : State) (ht : (start c s).seq.pending = true) :
    inFlight? (start c s) = inFlight? s := by
  rcases start_cases c s with e | ⟨-, -, e⟩ | ⟨-, -, e⟩ <;> rw [e] at ht ⊢
  · cases ht
  · rfl

/-- With a command pending a turn emits no other (R77). -/
theorem turn_inFlight (s : State) (hp : s.seq.pending = true) (ht : (turn s).seq.pending = true) :
    inFlight? (turn s) = inFlight? s := by
  rcases turn_cases s with e | ⟨-, e⟩ | ⟨c, rest, -, -, e⟩
  · rw [e]
  · rcases emitWith_cases Config.T s with hsame | ⟨c, -, hn, -⟩
    · rw [e, emit, hsame]
    · rw [hp] at hn
      cases hn
  · rw [e] at ht ⊢
    exact start_inFlight c _ ht

/-- An acknowledgment that is taken ends the presentation (R78), so one that leaves a command pending was not enabled. -/
theorem acknowledge_inFlight (s : State) (ht : (acknowledge s).seq.pending = true) :
    inFlight? (acknowledge s) = inFlight? s := by
  rcases ackWith_cases Config.T s with e | ⟨c, -, -, -, e⟩ <;> rw [acknowledge, e] at ht ⊢
  simp only [acknowledged] at ht
  split at ht <;> cases ht

theorem exec_inFlight (i : Instr) (s t : State) (h : exec i s = .next t) (ht : t.seq.pending = true) :
    inFlight? t = inFlight? s := by
  rcases exec_cases i s with ⟨a, e⟩ | ⟨c, -, e⟩ | ⟨c, e⟩ | ⟨-, e⟩ | ⟨a, addr, bs, -, e⟩ <;> rw [e] at h <;> cases h
  · rfl
  · exact s.raiseInvalidChip_inFlight c
  · exact start_inFlight c s ht
  · exact start_inFlight 0 _ ht
  · rfl

/-- The command presented is held until it is no longer pending (R77, R78). -/
theorem step_inFlight (s t : State) (hp : s.seq.pending = true) (h : step s = .next t) (ht : t.seq.pending = true) :
    inFlight? t = inFlight? s := by
  rw [← s.takeRaise_pending] at hp
  rw [← s.takeRaise_inFlight]
  rcases step_cases s with ⟨-, -, e⟩ | ⟨-, -, e⟩ | ⟨rest, -, e⟩ | ⟨rest, -, e⟩ | ⟨rest, -, e⟩ | ⟨rest, -, e⟩ |
    ⟨r, rest, i, -, -, e⟩ | ⟨r, rest, why, -, -, e⟩ <;> rw [e] at h
  · cases h; rfl
  · cases h; exact turn_inFlight (s.takeRaise.taken _) hp ht
  · cases h; exact turn_inFlight (s.takeRaise.taken rest) hp ht
  · cases h; exact acknowledge_inFlight (s.takeRaise.taken rest) ht
  · cases h; exact xfail_inFlight (s.takeRaise.taken rest)
  · cases h; cases ht
  · exact exec_inFlight i (s.takeRaise.taken rest) t h ht
  · cases h

theorem ports_of_inFlight {s : State} {k : Cmd} (h : inFlight? s = some k) :
    cmdAddrPort? s = some k.addr ∧ cmdDataPort? s = some (cmdData k.bytes) := by
  simp [cmdAddrPort?, cmdDataPort?, h]

/-- Byte `i` of a command of the block is the byte of its chip in the table's word at step `i` (R58, R71). -/
theorem cmdOf_byte (T : Table) (c : Chip) (op : Opcode) (i : Fin 8) :
    (cmdOf T c op).bytes[i].toNat = (T op (BitVec.ofNat 3 i.val)).toNat / 2 ^ (8 * c.val) % 256 := by
  simp [cmdOf, planeByte_toNat]

theorem tableReads_getElem? (s : State) (n : Nat) (h : n < 8) :
    (tableReads s)[n]? = some (romAddrOf s.seq.op (BitVec.ofNat 3 n)) := by
  simp [tableReads, h]

/-- The port `cmd_data` has the first byte lowest (R36). -/
theorem cmdData_toNat (b : Vector Byte 8) : (cmdData b).toNat = Nat.ofDigits 256 (b.toList.map BitVec.toNat) := by
  have hlt : Nat.ofDigits 256 (b.toList.map BitVec.toNat) < 256 ^ (b.toList.map BitVec.toNat).length := by
    refine Nat.ofDigits_lt_base_pow_length (by decide) fun n hn => ?_
    obtain ⟨x, -, rfl⟩ := List.mem_map.mp hn
    exact x.isLt
  rw [List.length_map, Vector.length_toList] at hlt
  have hfold : b.toList.foldr (fun x acc => x.toNat + 2 ^ 8 * acc) 0 = Nat.ofDigits 256 (b.toList.map BitVec.toNat) := by
    rw [Nat.ofDigits_eq_foldr, List.foldr_map]
    rfl
  rw [cmdData, BitVec.toNat_ofNat, hfold]
  exact Nat.mod_eq_of_lt hlt

/-- Byte `i` of a command is bits `8i + 7` to `8i` of the port `cmd_data` (R36). -/
theorem cmdData_byte (b : Vector Byte 8) (i : Nat) (h : i < 8) : (cmdData b).extractLsb' (8 * i) 8 = b[i] := by
  have hbyte := ofDigits_byte b.toList i (by simpa using h)
  apply BitVec.eq_of_toNat_eq
  rw [BitVec.extractLsb'_toNat, cmdData_toNat, Nat.shiftRight_eq_div_pow, Nat.pow_mul]
  simpa using hbyte

/-- Settles O53: the ports show the command in flight (`inFlight?_of_pending`, `ports_of_inFlight`), which a step keeps while
it is pending (`step_inFlight`). -/
theorem commandByteNumberings : Obligations.CommandByteNumberings := by
  refine ⟨fun s c hm hp hc => ?emitted, fun s c hp hc => ?pending, fun s t hp h ht => ?held, fun s hp => ?none,
    fun s n hn => ?reads, fun b i => ⟨cmdData_byte b i i.isLt, packBytes_byte b i i.isLt⟩⟩
  case emitted =>
    rw [emit, emitWith_enabled Config.T s c hm hp hc]
    obtain ⟨haddr, hdata⟩ := ports_of_inFlight (inFlight?_of_pending
      { s with out := s.out ++ [cmdOf Config.T c s.seq.op], seq := { s.seq with pending := true } } c rfl hc)
    exact ⟨cmdOf Config.T c s.seq.op, rfl, rfl, haddr, hdata, baseAddrOf_toNat c s.seq.op,
      cmdOf_byte Config.T c s.seq.op⟩
  case pending => exact ports_of_inFlight (inFlight?_of_pending s c hp hc)
  case held =>
    have hheld := step_inFlight s t hp h ht
    simp only [cmdAddrPort?, cmdDataPort?, hheld, and_self]
  case none => simp [cmdAddrPort?, cmdDataPort?, inFlight?_of_not_pending s hp]
  case reads =>
    refine ⟨_, tableReads_getElem? s n hn, ?_⟩
    rw [romAddrOf_toNat, BitVec.toNat_ofNat, Nat.mod_eq_of_lt hn]

end Sys2Proof.Machine

/-! ### The microcode table -/

namespace Sys2Proof.Machine

/-- Settles O6: every outcome that `exec_cases` lists is a next state. -/
theorem everyInstructionAnswersNext : Obligations.EveryInstructionAnswersNext := exec_next

theorem execLookup_eq (op : Opcode) (st : Step) (s : State) :
    exec (.lookup op st) s = .next (s.answerWith (.word (Config.T op st))) := rfl

/-- Settles O8: the word of step 0 is the first fetch word of R46. -/
theorem lookupAnswersTableWord : Obligations.LookupAnswersTableWord := by
  refine ⟨execLookup_eq, ?_⟩
  rintro T p real ⟨-, -, hfetch0, -⟩ op
  exact hfetch0 op

/-- The control word of a signal holds that signal and no other (R7). -/
theorem signalWord_getLsbD_position (j k : Fin 24) : (signalWord j).getLsbD k.val = decide (k = j) := by
  rw [signalWord_getLsbD, decide_eq_decide, Fin.ext_iff]

theorem fetchWord0_getLsbD (p : Config.Positions) (k : Fin 24) :
    (fetchWord0 p).getLsbD k.val = decide (k = p.mai ∨ k = p.pco) := by
  simp only [fetchWord0, BitVec.getLsbD_or, signalWord_getLsbD_position, Bool.decide_or]

theorem fetchWord1_getLsbD (p : Config.Positions) (k : Fin 24) :
    (fetchWord1 p).getLsbD k.val = decide (k = p.mo ∨ k = p.iri ∨ k = p.ce) := by
  simp only [fetchWord1, BitVec.getLsbD_or, signalWord_getLsbD_position, Bool.decide_or, Bool.or_assoc]

theorem defaultEntry_late (p : Config.Positions) (n : Nat) (hn : n < 8) (h : 3 ≤ n) : (defaultEntry p)[n] = 0 := by
  interval_cases n <;> rfl

theorem haltEntry_late (p : Config.Positions) (n : Nat) (hn : n < 8) (h : 4 ≤ n) : (haltEntry p)[n] = 0 := by
  interval_cases n <;> rfl

section
variable {T : Table} {p : Config.Positions} {real : Opcode → Bool}

/-- An opcode with no real instruction resets the step counter at step 2 and does nothing after it (R48). -/
theorem admissibleWith.default (h : admissibleWith T p real) {op : Opcode} (hop : real op = false) :
    T op 2 = signalWord p.rsc ∧ ∀ s : Step, 3 ≤ s.toNat → T op s = 0 := by
  obtain ⟨-, -, -, -, hdefault, -, -⟩ := h
  exact ⟨hdefault op hop 2, fun s hs => (hdefault op hop s).trans (defaultEntry_late p s.toNat s.isLt hs)⟩

/-- Opcode `0xFF` halts at step 2, resets the step counter at step 3 and does nothing after it (R50). -/
theorem admissibleWith.halt (h : admissibleWith T p real) :
    T 0xFF 2 = signalWord p.hlt ∧ T 0xFF 3 = signalWord p.rsc ∧ ∀ s : Step, 4 ≤ s.toNat → T 0xFF s = 0 := by
  obtain ⟨-, -, -, -, -, -, hhalt⟩ := h
  exact ⟨hhalt 2, hhalt 3, fun s hs => (hhalt s).trans (haltEntry_late p s.toNat s.isLt hs)⟩

theorem admissibleWith.rsc_ne_hlt (h : admissibleWith T p real) : p.rsc ≠ p.hlt := by
  obtain ⟨hdiffer, -⟩ := h
  have hnodup : [p.mai, p.pco, p.mo, p.iri, p.ce, p.rsc, p.hlt].Nodup := of_decide_eq_true hdiffer
  simp only [List.nodup_cons, List.mem_cons] at hnodup
  tauto

end

/-- Settles O9: the words of the table are the words of `admissibleWith.default` and `admissibleWith.halt`, and each of them
holds the signals it is the `or` of. -/
theorem admissibleTableSignals : Obligations.AdmissibleTableSignals := by
  intro T p real h op k
  have ⟨_, _, hfetch0, hfetch1, _⟩ := h
  obtain ⟨hhlt, hrsc, hzero⟩ := h.halt
  refine ⟨hfetch0 op ▸ fetchWord0_getLsbD p k, hfetch1 op ▸ fetchWord1_getLsbD p k, fun hop => ?default,
    hhlt ▸ signalWord_getLsbD_position p.hlt k, hrsc ▸ signalWord_getLsbD_position p.rsc k,
    fun s hs => hzero s hs ▸ BitVec.getLsbD_zero⟩
  case default =>
    obtain ⟨hrsc', hzero'⟩ := h.default hop
    exact ⟨hrsc' ▸ signalWord_getLsbD_position p.rsc k, fun s hs => hzero' s hs ▸ BitVec.getLsbD_zero⟩

/-- Settles O10: step 2 holds `HLT`, which is not `RSC`, and the steps after 3 hold nothing. -/
theorem haltEntryClosesAtStepThree : Obligations.HaltEntryClosesAtStepThree := by
  intro T p real h m
  obtain ⟨hhlt, hrsc, hzero⟩ := h.halt
  constructor
  · rintro ⟨hm, hbit, -⟩
    have hne2 : m ≠ 2 := by
      rintro rfl
      rw [hhlt, signalWord_getLsbD_position] at hbit
      exact h.rsc_ne_hlt (of_decide_eq_true hbit)
    have hnot4 : ¬ 4 ≤ m.toNat := by
      intro hlate
      rw [hzero m hlate] at hbit
      simp at hbit
    bv_omega
  · rintro rfl
    exact ⟨by decide, hrsc ▸ (signalWord_getLsbD_position p.rsc p.rsc).trans (decide_eq_true rfl), hzero⟩

end Sys2Proof.Machine

/-! ### The projector, the multiplexer and illegal chip indices -/

namespace Sys2Proof.Machine

/-- `PLANE` is `MUX` over `SPLIT` (R57, R58): the multiplexer passes the output of the projector for its selector. -/
theorem planeByte_eq_muxByte_splitWord (c : Chip) (cw : CW) :
    planeByte c cw = muxByte c (splitWord cw).1 (splitWord cw).2.1 (splitWord cw).2.2 := by
  obtain ⟨h0, h1, h2⟩ := splitWord_toNat cw
  apply BitVec.eq_of_toNat_eq
  rw [planeByte_toNat]
  match c with
  | 0 => simp [muxByte, h0]
  | 1 => simp [muxByte, h1]
  | 2 => simp [muxByte, h2]

/-- The projector's three outputs are the planes of the three chips (R56, R58). -/
theorem splitWord_eq_planeBytes (cw : CW) : splitWord cw = (planeByte 0 cw, planeByte 1 cw, planeByte 2 cw) := by
  simp only [planeByte_eq_muxByte_splitWord, muxByte]

theorem planeBytes_toNat (cw : CW) :
    (planeByte 0 cw).toNat = cw.toNat % 256 ∧ (planeByte 1 cw).toNat = cw.toNat / 256 % 256 ∧
      (planeByte 2 cw).toNat = cw.toNat / 65536 % 256 := by
  have h := splitWord_toNat cw
  rwa [splitWord_eq_planeBytes] at h

/-- Settles O13. -/
theorem planeIsShiftAndMask : Obligations.PlaneIsShiftAndMask := fun c cw s =>
  ⟨planeByte c cw, answerForChip_legal c.val c.isLt _ s, planeByte_toNat c cw, planeByte_eq_muxByte_splitWord c cw⟩

/-- Splitting a joined word gives its planes back, plane 0 first (R59). -/
theorem splitWord_joinWord (p2 p1 p0 : Byte) : splitWord (joinWord p2 p1 p0) = (p0, p1, p2) := by
  obtain ⟨h0, h1, h2⟩ := planeBytes_toNat (joinWord p2 p1 p0)
  rw [joinWord_toNat] at h0 h1 h2
  simp only [splitWord_eq_planeBytes, Prod.mk.injEq, ← BitVec.toNat_inj, h0, h1, h2]
  omega

/-- Joining the planes of a word gives the word back (R59). -/
theorem joinWord_planeBytes (cw : CW) : joinWord (planeByte 2 cw) (planeByte 1 cw) (planeByte 0 cw) = cw := by
  obtain ⟨h0, h1, h2⟩ := planeBytes_toNat cw
  apply BitVec.eq_of_toNat_eq
  rw [joinWord_toNat, h0, h1, h2]
  omega

/-- Settles O14. -/
theorem joinInvertsSplit : Obligations.JoinInvertsSplit :=
  ⟨fun p2 p1 p0 _ => ⟨joinWord p2 p1 p0, rfl, joinWord_toNat p2 p1 p0, splitWord_joinWord p2 p1 p0⟩,
    joinWord_planeBytes⟩

/-- Settles O15: bit `j` of plane `c` is bit `8c + j` of the word (`planeByte_getLsbD`), and a quotient of a 24-bit word by
`2^16` has no bits above a byte. -/
theorem planeDependsOnItsSignalsOnly : Obligations.PlaneDependsOnItsSignalsOnly := by
  refine ⟨fun c cw cw' hagree => BitVec.eq_of_getLsbD_eq fun j hj => ?bit, fun cw => ?mask⟩
  case bit => rw [planeByte_getLsbD c cw j hj, planeByte_getLsbD c cw' j hj, hagree j hj]
  case mask =>
    obtain ⟨-, -, h2⟩ := planeBytes_toNat cw
    omega

/-- Output bit `j` of the projector for chip `c` is bit `8c + j` of the word (R56). -/
theorem splitWord_getLsbD (cw : CW) (j : Nat) (hj : j < 8) :
    (splitWord cw).1.getLsbD j = cw.getLsbD j ∧ (splitWord cw).2.1.getLsbD j = cw.getLsbD (8 + j) ∧
      (splitWord cw).2.2.getLsbD j = cw.getLsbD (16 + j) := by
  simp [splitWord, hj]

/-- Settles O11. -/
theorem splitIsWiring : Obligations.SplitIsWiring := fun cw _ => ⟨_, _, _, rfl, splitWord_getLsbD cw⟩

/-- A legal selector passes its plane (R57). -/
theorem exec_mux_legal (c : Chip) (p0 p1 p2 : Byte) (s : State) :
    exec (.mux c.val p0 p1 p2) s = .next (s.answerWith (.byte (muxByte c p0 p1 p2))) :=
  answerForChip_legal c.val c.isLt _ s

/-- Settles O12. -/
theorem muxPassesSelectedPlane : Obligations.MuxPassesSelectedPlane := fun p0 p1 p2 s =>
  ⟨exec_mux_legal 0 p0 p1 p2 s, exec_mux_legal 1 p0 p1 p2 s, exec_mux_legal 2 p0 p1 p2 s⟩

/-- The five operations that take a chip index all do one thing with an illegal one: they raise it (R61, R69, R70). -/
theorem exec_illegalChip {s t : State} {c : Nat} (hc : 3 ≤ c) (ht : s.raiseInvalidChip c = t) :
    (∀ p0 p1 p2, exec (.mux c p0 p1 p2) s = .next t) ∧ (∀ cw, exec (.plane c cw) s = .next t) ∧
    (∀ op, exec (.baseaddr c op) s = .next t) ∧ (∀ op st, exec (.logaddr c op st) s = .next t) ∧
    ∀ a, exec (.romimage c a) s = .next t := by
  have hraise (f : Chip → Answer) : answerForChip c f s = .next t := ht ▸ answerForChip_illegal c hc f s
  exact ⟨fun _ _ _ => hraise _, fun _ => hraise _, fun _ => hraise _, fun _ _ => hraise _, fun _ => hraise _⟩

/-- With no pass running and none planned a raise is fault entry at once (R94). -/
theorem State.raiseInvalidChip_of_idle {s : State} (c : Nat) (hm : s.seq.mode = .idle) (hp : s.plan = []) :
    s.raiseInvalidChip c = (s.recordInvalidChip c).enterFault .invalidChipIndex (some c) := by
  simp [State.raiseInvalidChip, hm, hp]

/-- While a pass or a full pass runs a raise is recorded and due, the first one staying due (R96, R97; log entry 5). -/
theorem State.raiseInvalidChip_of_running {s : State} (c : Nat)
    (h : s.seq.mode = .busy ∨ s.seq.mode = .idle ∧ s.plan ≠ []) :
    s.raiseInvalidChip c = { s.recordInvalidChip c with due := s.due.or (some c) } := by
  rcases s.raiseInvalidChip_cases c with ⟨hm, hp, -⟩ | ⟨-, e⟩ | ⟨hm, -⟩
  · simp [hm, hp] at h
  · exact e
  · simp [hm] at h

/-- In `FAULT` a raise is recorded and nothing else (R95). -/
theorem State.raiseInvalidChip_of_fault {s : State} (c : Nat) (hm : s.seq.mode = .fault) :
    s.raiseInvalidChip c = s.recordInvalidChip c := by
  simp [State.raiseInvalidChip, hm]

/-- Settles O17: each of the five operations raises (`exec_illegalChip`), and in `IDLE` what a raise does depends on the plan
alone. -/
theorem illegalChipIndexEntersFault : Obligations.IllegalChipIndexEntersFault := by
  intro s c hm hc t
  apply exec_illegalChip hc
  by_cases hp : s.plan = []
  · simp only [t, if_pos hp]
    exact s.raiseInvalidChip_of_idle c hm hp
  · simp only [t, if_neg hp]
    exact s.raiseInvalidChip_of_running c (.inr ⟨hm, hp⟩)

theorem State.takeRaise_of_plan_ne_nil {s : State} (hp : s.plan ≠ []) : s.takeRaise = s := by
  rcases s.takeRaise_cases with ⟨e, -⟩ | ⟨-, -, hnil, -⟩
  · exact e
  · exact absurd hnil hp

/-- A raise that is due is entered in `IDLE` when no request of a full pass is still to be made (R94, R97; log entry 5). -/
theorem State.takeRaise_of_due {s : State} {c : Nat} (hm : s.seq.mode = .idle) (hp : s.plan = []) (hd : s.due = some c) :
    s.takeRaise = { s.enterFault .invalidChipIndex (some c) with due := none } := by
  simp [State.takeRaise, hm, hp, hd]

/-- A block in `FAULT` with nothing scheduled waits (R95, R108). -/
theorem stepEvent_of_fault {s : State} (hm : s.seq.mode = .fault) (hs : s.schedule = []) : stepEvent s = .next s := by
  simp [stepEvent, hs, canMove, hm]

/-- Settles O18: outside `IDLE` each of the five operations raises and leaves the sequencer alone; a raise that is due is
entered by `takeRaise`, and the block it leaves in `FAULT` waits. -/
theorem illegalChipIndexOutsideIdle : Obligations.IllegalChipIndexOutsideIdle := by
  constructor
  · intro s c hc u v
    exact ⟨fun hm => exec_illegalChip hc (s.raiseInvalidChip_of_running c (.inl hm)),
      fun hm => exec_illegalChip hc (s.raiseInvalidChip_of_fault c hm)⟩
  · intro s c hm hd w
    refine ⟨State.takeRaise_of_plan_ne_nil, fun hp => ?_⟩
    have htake : s.takeRaise = w := State.takeRaise_of_due hm hp hd
    exact ⟨htake, fun hs => by rw [step, htake]; exact stepEvent_of_fault rfl hs⟩

end Sys2Proof.Machine

/-! ### The address combiner -/

namespace Sys2Proof.Machine

theorem romOp_toNat (a : RomAddr) : (romOp a).toNat = a.toNat / 8 := by
  rw [romOp, BitVec.extractLsb'_toNat, Nat.shiftRight_eq_div_pow]
  omega

theorem romStep_toNat (a : RomAddr) : (romStep a).toNat = a.toNat % 8 := by
  simp [romStep, BitVec.extractLsb'_toNat]

theorem logChip_toNat (a : LogAddr) : (logChip a).toNat = a.toNat / 2048 % 4 := by
  simp [logChip, BitVec.extractLsb'_toNat, Nat.shiftRight_eq_div_pow]

theorem logOp_toNat (a : LogAddr) : (logOp a).toNat = a.toNat / 8 % 256 := by
  simp [logOp, BitVec.extractLsb'_toNat, Nat.shiftRight_eq_div_pow]

theorem logStep_toNat (a : LogAddr) : (logStep a).toNat = a.toNat % 8 := by
  simp [logStep, BitVec.extractLsb'_toNat]

theorem logRom_toNat (a : LogAddr) : (logRom a).toNat = a.toNat % 2048 := by
  simp [logRom, BitVec.extractLsb'_toNat]

/-- The fields of an address inside a chip give the address back (R67). -/
theorem romAddrOf_romOp_romStep (a : RomAddr) : romAddrOf (romOp a) (romStep a) = a := by
  apply BitVec.eq_of_toNat_eq
  rw [romAddrOf_toNat, romOp_toNat, romStep_toNat]
  omega

/-- Settles O20: the one pair of an address is its two fields (`romAddrOf_romOp_romStep`, `romOp_romAddrOf`,
`romStep_romAddrOf`). -/
theorem romAddrCombinesOpcodeAndStep : Obligations.RomAddrCombinesOpcodeAndStep := by
  refine ⟨fun op st s => ⟨romAddrOf op st, rfl, romAddrOf_toNat op st⟩,
    fun a => ⟨(romOp a, romStep a), romAddrOf_romOp_romStep a, ?_⟩⟩
  rintro ⟨op, st⟩ rfl
  rw [romOp_romAddrOf, romStep_romAddrOf]

/-- Settles O21. -/
theorem baseAddrPlacesChipAndOpcode : Obligations.BaseAddrPlacesChipAndOpcode := fun c op s =>
  ⟨baseAddrOf c op, answerForChip_legal c.val c.isLt _ s, baseAddrOf_toNat c op⟩

/-- The opcode and the step of a logical address are those of its address inside the chip (R67). -/
theorem logRom_eq_romAddrOf (a : LogAddr) : logRom a = romAddrOf (logOp a) (logStep a) := by
  apply BitVec.eq_of_toNat_eq
  rw [logRom_toNat, romAddrOf_toNat, logOp_toNat, logStep_toNat]
  omega

section
variable (c : Chip) (op : Opcode) (st : Step)

theorem logAddrOf_le : (logAddrOf c op st).toNat ≤ 0x17FF := by
  rw [logAddrOf_toNat]
  omega

theorem logChip_logAddrOf : (logChip (logAddrOf c op st)).toNat = c.val := by
  rw [logChip_toNat, logAddrOf_toNat]
  omega

theorem logOp_logAddrOf : logOp (logAddrOf c op st) = op := by
  apply BitVec.eq_of_toNat_eq
  rw [logOp_toNat, logAddrOf_toNat]
  omega

theorem logStep_logAddrOf : logStep (logAddrOf c op st) = st := by
  apply BitVec.eq_of_toNat_eq
  rw [logStep_toNat, logAddrOf_toNat]
  omega

/-- The three fields do not overlap, so their or is their sum (R66). -/
theorem logAddrOf_eq_or :
    logAddrOf c op st = (BitVec.ofNat 16 c.val <<< 11 ||| op.setWidth 16 <<< 3 ||| st.setWidth 16) := by
  have hchip : (BitVec.ofNat 16 c.val <<< 11).toNat = c.val <<< 11 := by
    simp only [BitVec.toNat_shiftLeft, BitVec.toNat_ofNat, Nat.shiftLeft_eq]
    omega
  have hop : (op.setWidth 16 <<< 3).toNat = op.toNat <<< 3 := by
    simp only [BitVec.toNat_shiftLeft, BitVec.toNat_setWidth, Nat.shiftLeft_eq]
    omega
  have hst : (st.setWidth 16).toNat = st.toNat := BitVec.toNat_setWidth_of_le (by decide)
  apply BitVec.eq_of_toNat_eq
  calc (logAddrOf c op st).toNat
      = c.val * 2 ^ 11 + (op.toNat * 2 ^ 3 + st.toNat) := by rw [logAddrOf_toNat]; omega
    _ = c.val <<< 11 ||| (op.toNat <<< 3 ||| st.toNat) := by
        rw [shift_or_eq_add op.toNat _ _ st.isLt, shift_or_eq_add _ _ _ (by omega)]
    _ = _ := by rw [BitVec.toNat_or, BitVec.toNat_or, hchip, hop, hst, Nat.or_assoc]

end

/-- Different operands have different addresses, since the fields are read back (R66, R67). -/
theorem logAddrOf_injective {c c' : Chip} {op op' : Opcode} {st st' : Step}
    (h : logAddrOf c op st = logAddrOf c' op' st') : c = c' ∧ op = op' ∧ st = st' := by
  refine ⟨Fin.ext ?chip, ?op, ?step⟩
  case chip => rw [← logChip_logAddrOf c op st, h, logChip_logAddrOf]
  case op => rw [← logOp_logAddrOf c op st, h, logOp_logAddrOf]
  case step => rw [← logStep_logAddrOf c op st, h, logStep_logAddrOf]

/-- Settles O22: the sum is the model's `LOGADDR`, the or is `logAddrOf_eq_or`. -/
theorem logAddrCombinesDisjointFields : Obligations.LogAddrCombinesDisjointFields :=
  ⟨fun c op st s => ⟨logAddrOf c op st, answerForChip_legal c.val c.isLt _ s, logAddrOf_toNat c op st, rfl,
      logAddrOf_eq_or c op st, logAddrOf_le c op st⟩,
    fun _ _ _ _ _ _ => logAddrOf_injective⟩

/-- The fields of a logical address whose chip field is legal give the address back (R67). -/
theorem logAddrOf_fields {a : LogAddr} (h : a.toNat ≤ 0x17FF) :
    ∃ c : Chip, (logChip a).toNat = c.val ∧ logAddrOf c (logOp a) (logStep a) = a := by
  refine ⟨⟨a.toNat / 2048, by omega⟩, ?chip, BitVec.eq_of_toNat_eq ?address⟩
  case chip => rw [logChip_toNat, Nat.mod_eq_of_lt (by omega)]
  case address =>
    simp only [logAddrOf_toNat, logOp_toNat, logStep_toNat]
    omega

/-- Settles O23: from an address to its fields by `logAddrOf_fields`, from the fields to their address and back by one lemma
per field. -/
theorem addressFieldsReadBack : Obligations.AddressFieldsReadBack := by
  refine ⟨fun a h => ?fields, fun c op st => ?operands⟩
  case fields =>
    obtain ⟨c, hchip, haddr⟩ := logAddrOf_fields h
    exact ⟨c, hchip, haddr, logRom_eq_romAddrOf a⟩
  case operands =>
    have hrom : logRom (logAddrOf c op st) = romAddrOf op st := by
      rw [logRom_eq_romAddrOf, logOp_logAddrOf, logStep_logAddrOf]
    exact ⟨logChip_logAddrOf c op st, logOp_logAddrOf c op st, logStep_logAddrOf c op st, hrom,
      romOp_romAddrOf op st, romStep_romAddrOf op st⟩

/-- The next opcode's base address is 8 higher (R68). -/
theorem baseAddrOf_succ (c : Chip) (op : Opcode) (h : op ≠ 0xFF) :
    (baseAddrOf c (op + 1)).toNat = (baseAddrOf c op).toNat + 8 := by
  have hop : (op + 1).toNat = op.toNat + 1 := by bv_omega
  rw [baseAddrOf_toNat, baseAddrOf_toNat, hop]
  omega

/-- The command addresses of a pass: the multiples of 8 in the chip's segment, ascending (R68, R72). -/
theorem encodeCmds_addresses (T : Table) (c : Chip) :
    (encodeCmds T c).map (fun k => k.addr.toNat) = List.range' (c.val * 2048) 256 8 := by
  refine List.ext_getElem (by simp [encodeCmds_length]) fun n hn _ => ?_
  rw [List.length_map, encodeCmds_length] at hn
  simp [encodeCmds, baseAddrOf_toNat, Nat.mod_eq_of_lt hn, Nat.mul_comm 8]

/-- The command addresses of a full pass: the multiples of 8 below `0x1800`, ascending, since the three segments are
contiguous (R68, R75). -/
theorem fullPassCmds_addresses (T : Table) :
    (fullPassCmds T).map (fun k => k.addr.toNat) = List.range' 0 768 8 := by
  simp only [fullPassCmds, List.map_append, encodeCmds_addresses]
  calc List.range' 0 256 8 ++ List.range' (0 + 8 * 256) 256 8 ++ List.range' (0 + 8 * 512) 256 8
      = List.range' 0 512 8 ++ List.range' (0 + 8 * 512) 256 8 := by rw [List.range'_append]
    _ = List.range' 0 768 8 := List.range'_append

/-- Settles O24: the addresses of a pass and of a full pass are ranges with the stride 8 (`encodeCmds_addresses`,
`fullPassCmds_addresses`). -/
theorem baseAddressesAscend : Obligations.BaseAddressesAscend := by
  refine ⟨baseAddrOf_succ, by decide, by decide, fun T c => ?pass, fun T => ?fullPass⟩
  case pass =>
    rw [encodeCmds_addresses]
    exact List.pairwise_lt_range' 8
  case fullPass =>
    rw [fullPassCmds_addresses]
    exact List.pairwise_lt_range' 8

end Sys2Proof.Machine

/-! ### The ROM image and the commands of `ENCODE` -/

namespace Sys2Proof.Machine

open Sys2Proof.Safety

theorem romImage_romAddrOf (T : Table) (c : Chip) (op : Opcode) (st : Step) :
    romImage T c (romAddrOf op st) = planeByte c (T op st) := by
  rw [romImage, romOp_romAddrOf, romStep_romAddrOf]

/-- The fields of an address inside a chip as numbers: the opcode is `a / 8` and the step is `a % 8` (R67, R70). -/
theorem romImage_eq (T : Table) (c : Chip) (a : RomAddr) :
    romImage T c a = planeByte c (T (BitVec.ofNat 8 (a.toNat / 8)) (BitVec.ofNat 3 a.toNat)) := by
  have hop : romOp a = BitVec.ofNat 8 (a.toNat / 8) := by rw [← romOp_toNat, BitVec.ofNat_toNat, BitVec.setWidth_eq]
  have hstep : romStep a = BitVec.ofNat 3 a.toNat :=
    BitVec.eq_of_toNat_eq (by rw [romStep_toNat, BitVec.toNat_ofNat])
  rw [romImage, hop, hstep]

/-- Settles O26: a legal index answers (`answerForChip_legal`), and the image is read by number (`romImage_eq`) and by opcode
and step (`romImage_romAddrOf`). -/
theorem romImageIsPlaneOfTable : Obligations.RomImageIsPlaneOfTable :=
  ⟨fun c a s => ⟨romImage Config.T c a, answerForChip_legal c.val c.isLt _ s, romImage_eq Config.T c a⟩,
    romImage_romAddrOf⟩

theorem encodeFn?_eq_none_iff (T : Table) (c : Nat) : encodeFn? T c = none ↔ 3 ≤ c := by
  rw [encodeFn?, Option.map_eq_none_iff]
  rcases Nat.lt_or_ge c 3 with h | h
  · simp [chipOf?_of_lt c h, h]
  · simp [chipOf?_of_ge c h, h]

theorem encodeFn?_legal (T : Table) (c : Chip) : encodeFn? T c.val = some (encodeCmds T c) := by
  rw [encodeFn?, chipOf?_val, Option.map_some]

theorem encodeCmds_getElem?_opcode (T : Table) (c : Chip) (op : Opcode) :
    (encodeCmds T c)[op.toNat]? = some (cmdOf T c op) := by
  rw [encodeCmds_get T c _ op.isLt, BitVec.ofNat_toNat, BitVec.setWidth_eq]

theorem cmdOf_byte_eq_romImage (T : Table) (c : Chip) (op : Opcode) (i : Fin 8) :
    (cmdOf T c op).bytes[i] = romImage T c (romAddrOf op (BitVec.ofNat 3 i.val)) := by
  rw [romImage_romAddrOf]
  simp [cmdOf]

/-- Settles O27: the command of an opcode stands at its own position (`encodeCmds_getElem?_opcode`). -/
theorem encodeListsEveryOpcode : Obligations.EncodeListsEveryOpcode :=
  ⟨encodeFn?_eq_none_iff, fun T c => ⟨encodeFn?_legal T c, encodeCmds_length T c, fun op =>
    ⟨cmdOf T c op, encodeCmds_getElem?_opcode T c op, baseAddrOf_toNat c op,
      fun i => ⟨cmdOf_byte T c op i, cmdOf_byte_eq_romImage T c op i⟩⟩⟩⟩

/-- Byte `i` of command `n` of a pass stands `8 * n + i` above the start of the segment (R64, R71). -/
theorem encodeCmds_byte_address (T : Table) (c : Chip) (n : Fin 256) (i a : Nat) :
    (∃ k, (encodeCmds T c)[n.val]? = some k ∧ k.addr.toNat + i = a) ↔ c.val * 2048 + n.val * 8 + i = a := by
  simp [encodeCmds_get T c n.val n.isLt, baseAddrOf_toNat]

/-- Settles O28: an address of the segment is `8 * n + i` above its start for one opcode `n` and one step `i`, the quotient
and the remainder of its distance by 8 (`encodeCmds_byte_address`). -/
theorem passCoversSegmentOnce : Obligations.PassCoversSegmentOnce := by
  intro T c a ha
  simp only [encodeCmds_byte_address]
  refine ⟨(⟨(a - c.val * 2048) / 8, by omega⟩, ⟨(a - c.val * 2048) % 8, by omega⟩), ?stands, ?unique⟩
  case stands =>
    dsimp only
    omega
  case unique =>
    rintro ⟨n, i⟩ h
    dsimp only at h
    ext <;> dsimp only <;> omega

theorem mem_encodeCmds (T : Table) (c : Chip) (k : Cmd) : k ∈ encodeCmds T c ↔ ∃ op, k = cmdOf T c op := by
  constructor
  · intro hk
    obtain ⟨n, -, rfl⟩ := List.mem_map.mp hk
    exact ⟨_, rfl⟩
  · rintro ⟨op, rfl⟩
    exact List.mem_of_getElem? (encodeCmds_getElem?_opcode T c op)

theorem chip_eq : ∀ c : Chip, c = 0 ∨ c = 1 ∨ c = 2 := by decide

theorem mem_fullPassCmds (T : Table) (k : Cmd) : k ∈ fullPassCmds T ↔ ∃ c op, k = cmdOf T c op := by
  simp only [fullPassCmds, List.mem_append, mem_encodeCmds]
  constructor
  · rintro ((h | h) | h)
    · exact ⟨0, h⟩
    · exact ⟨1, h⟩
    · exact ⟨2, h⟩
  · rintro ⟨c, h⟩
    obtain rfl | rfl | rfl := chip_eq c
    · exact .inl (.inl h)
    · exact .inl (.inr h)
    · exact .inr h

theorem fullPassCmds_length (T : Table) : (fullPassCmds T).length = 768 := by
  simp [fullPassCmds, encodeCmds_length]

end Sys2Proof.Machine

/-! ### What `L` holds after commands of the block, in any order -/

namespace Sys2Proof.Safety

open Sys2Proof.Machine

/-- The address is one of the eight that a command writes (R23, R85). -/
abbrev covers (k : Cmd) (a : Nat) : Prop :=
  k.addr.toNat ≤ a ∧ a < k.addr.toNat + 8

theorem covers_cmdOf_iff (T : Table) (c : Chip) (op : Opcode) (a : Nat) :
    covers (cmdOf T c op) a ↔ c.val * 2048 + op.toNat * 8 ≤ a ∧ a < c.val * 2048 + op.toNat * 8 + 8 := by
  rw [covers, cmdOf_addr, baseAddrOf_toNat]

/-- What the images of the three chips hold at a logical address (R27, R67, R70): the chip, the opcode and the step are the
fields of the address. -/
def imageAt? (T : Table) (a : Nat) : Option Byte :=
  (chipOf? (a / 2048)).map fun c => planeByte c (T (BitVec.ofNat 8 (a / 8)) (BitVec.ofNat 3 a))

theorem imageAt?_of_covers (T : Table) (c : Chip) (op : Opcode) (a : Nat) (h : covers (cmdOf T c op) a) :
    imageAt? T a = some (planeByte c (T op (BitVec.ofNat 3 a))) := by
  have hlt := op.isLt
  rw [covers_cmdOf_iff] at h
  have hop : BitVec.ofNat 8 (a / 8) = op := by
    apply BitVec.eq_of_toNat_eq
    rw [BitVec.toNat_ofNat]
    omega
  rw [imageAt?, show a / 2048 = c.val by omega, chipOf?_val, Option.map_some, hop]

theorem covers_logAddrOf (T : Table) (c : Chip) (op : Opcode) (st : Step) :
    covers (cmdOf T c op) (logAddrOf c op st).toNat := by
  rw [covers_cmdOf_iff, logAddrOf_toNat]
  omega

theorem imageAt?_logAddrOf (T : Table) (c : Chip) (op : Opcode) (st : Step) :
    imageAt? T (logAddrOf c op st).toNat = some (planeByte c (T op st)) := by
  have hstep : BitVec.ofNat 3 (logAddrOf c op st).toNat = st := by
    apply BitVec.eq_of_toNat_eq
    rw [BitVec.toNat_ofNat, logAddrOf_toNat]
    omega
  rw [imageAt?_of_covers T c op _ (covers_logAddrOf T c op st), hstep]

theorem applyCmds_append (m : Memory) (ks ks' : List Cmd) : applyCmds m (ks ++ ks') = applyCmds (applyCmds m ks) ks' :=
  List.foldl_append

theorem wf_applyCmds (m : Memory) (ks : List Cmd) (h : m.wf) : (applyCmds m ks).wf := by
  induction ks generalizing m with
  | nil => exact h
  | cons k ks ih => exact ih _ (Memory.wf_writeBytes _ _ _ h)

/-- A command of the block leaves the image at the addresses it covers and every other address as before (R71, R85). -/
theorem read?_writeBytes_cmdOf (T : Table) (c : Chip) (op : Opcode) (m : Memory) (a : Nat) :
    (m.writeBytes (baseAddrOf c op) (cmdOf T c op).bytes.toList).read? a =
      if covers (cmdOf T c op) a then imageAt? T a else m.read? a := by
  rw [read?_after_cmdOf]
  simp only [← covers_cmdOf_iff T]
  split
  · next h => exact (imageAt?_of_covers T c op a h).symm
  · rfl

/-- Commands of the block leave the image at the addresses they cover and every other address as before. Which of them come
first does not show: what a command leaves at an address depends on the address alone (R28, R72). -/
theorem read?_applyCmds (T : Table) (ks : List Cmd) (hks : ∀ k ∈ ks, ∃ c op, k = cmdOf T c op) (m : Memory) (a : Nat) :
    (applyCmds m ks).read? a = if ∃ k ∈ ks, covers k a then imageAt? T a else m.read? a := by
  induction ks generalizing m with
  | nil => simp [applyCmds]
  | cons k ks ih =>
    obtain ⟨⟨c, op, rfl⟩, hrest⟩ := List.forall_mem_cons.mp hks
    have hcons : applyCmds m (cmdOf T c op :: ks) =
      applyCmds (m.writeBytes (baseAddrOf c op) (cmdOf T c op).bytes.toList) ks := rfl
    rw [hcons, ih hrest, read?_writeBytes_cmdOf, ← ite_or]
    simp only [List.exists_mem_cons_iff, or_comm]

/-- Commands of one table in another order leave the same map (R28). -/
theorem applyCmds_perm (T : Table) {ks ks' : List Cmd} (hperm : ks.Perm ks')
    (hks : ∀ k ∈ ks', ∃ c op, k = cmdOf T c op) (m : Memory) (hm : m.wf) : applyCmds m ks = applyCmds m ks' := by
  apply Memory.ext_of_read _ _ (wf_applyCmds m ks hm) (wf_applyCmds m ks' hm)
  intro a
  rw [read?_applyCmds T ks (fun k hk => hks k (hperm.mem_iff.mp hk)), read?_applyCmds T ks' hks]
  simp only [hperm.mem_iff]

/-- Settles O29, by `applyCmds_perm`: what a map reads depends on which commands were written, and not on their order. -/
theorem reorderingLeavesSameImage : Obligations.ReorderingLeavesSameImage := fun T m hm =>
  ⟨fun c _ hperm => applyCmds_perm T hperm (fun k hk => ⟨c, (mem_encodeCmds T c k).mp hk⟩) m hm,
    fun _ hperm => applyCmds_perm T hperm (fun k hk => (mem_fullPassCmds T k).mp hk) m hm⟩

/-- After the commands of a full pass the segments hold the images of the three chips (R75, R89). -/
theorem read?_applyCmds_fullPassCmds (T : Table) (m : Memory) (c : Chip) (op : Opcode) (st : Step) :
    (applyCmds m (fullPassCmds T)).read? (logAddrOf c op st).toNat = some (planeByte c (T op st)) := by
  rw [read?_applyCmds T _ (fun k hk => (mem_fullPassCmds T k).mp hk),
    if_pos ⟨_, (mem_fullPassCmds T _).mpr ⟨c, op, rfl⟩, covers_logAddrOf T c op st⟩, imageAt?_logAddrOf]

/-- The commands of a full pass leave every address from `0x1800` on as it was (R27, R66). -/
theorem read?_applyCmds_fullPassCmds_above (T : Table) (m : Memory) (a : Nat) (ha : 0x1800 ≤ a) :
    (applyCmds m (fullPassCmds T)).read? a = m.read? a := by
  rw [read?_applyCmds T _ (fun k hk => (mem_fullPassCmds T k).mp hk), if_neg]
  rintro ⟨k, hk, hcovers⟩
  obtain ⟨c, op, rfl⟩ := (mem_fullPassCmds T k).mp hk
  have hop := op.isLt
  rw [covers_cmdOf_iff] at hcovers
  omega

end Sys2Proof.Safety

/-! ### Requests in `IDLE`, events that are not enabled, and the steps of a pass -/

namespace Sys2Proof.Machine

open Sys2Proof.Safety

/-- The sequencer in a running pass of chip `c`, at an opcode with nothing pending (R76, R78). -/
def passSeq (c : Chip) (op : Opcode) (cause : Cause) : Seq :=
  { mode := .busy, chip := BitVec.ofNat 2 c.val, op := op, pending := false, cause := cause }

/-- The block with a pass of chip `c` just opened (R76). -/
def State.opened (s : State) (c : Chip) : State :=
  { s with seq := passSeq c 0 s.seq.cause }

@[simp] theorem State.opened_out (s : State) (c : Chip) : (s.opened c).out = s.out := rfl
@[simp] theorem State.opened_L (s : State) (c : Chip) : (s.opened c).L = s.L := rfl

theorem start_opened (c : Chip) (s : State) (h : s.seq.mode = .idle) : start c.val s = s.opened c :=
  start_legal c.val s h c.isLt

theorem execFullpass_idle (s : State) (h : s.seq.mode = .idle) :
    exec .fullpass s = .next (State.opened { s with plan := [1, 2] } 0) := by
  simp only [exec, execFullpass, h]
  exact congrArg Host.Outcome.next (start_opened 0 { s with plan := [1, 2] } h)

/-- Settles O31. -/
theorem startOpensPass : Obligations.StartOpensPass := fun s hm =>
  ⟨congrArg Host.Outcome.next (start_opened 0 s hm), congrArg Host.Outcome.next (start_opened 1 s hm),
    congrArg Host.Outcome.next (start_opened 2 s hm)⟩

/-- Settles O32. -/
theorem reservedRequestFaults : Obligations.ReservedRequestFaults := fun s hm =>
  congrArg Host.Outcome.next (start_illegal 3 s hm (Nat.le_refl 3))

/-- Settles O33. -/
theorem fullPassMakesFirstRequest : Obligations.FullPassMakesFirstRequest := execFullpass_idle

/-- A request that starts a pass has no step outside `IDLE` (R76, R100; log entry 3). -/
theorem exec_start_notIdle {i : Instr} {s : State}
    (hi : i = .encode0 ∨ i = .encode1 ∨ i = .encode2 ∨ i = .reservedChip3 ∨ i = .fullpass) (hm : s.seq.mode ≠ .idle) :
    exec i s = .next s := by
  have hstart (c : Nat) : Host.Outcome.next (start c s) = (.next s : Host.Outcome State Fault Refusal) := by
    rw [start_notIdle c s hm]
  rcases hi with rfl | rfl | rfl | rfl | rfl
  · exact hstart 0
  · exact hstart 1
  · exact hstart 2
  · exact hstart 3
  · cases h : s.seq.mode with
    | idle => exact absurd h hm
    | busy => simp [exec, execFullpass, h]
    | fault => simp [exec, execFullpass, h]

/-- An acknowledgment with no command presented has no step (R78, R100; log entry 3). -/
theorem acknowledge_notEnabled {s : State} (h : s.seq.mode ≠ .busy ∨ s.seq.pending = false) : acknowledge s = s := by
  rw [acknowledge]
  rcases ackWith_cases Config.T s with e | ⟨c, hm, hp, -⟩
  · exact e
  · simp [hm, hp] at h

theorem xfail_notEnabled {s : State} (h : s.seq.mode ≠ .busy) : xfail s = s := if_neg h

/-- A turn does nothing where there is no command to emit and no request to make (R75, R77; log entry 3). -/
theorem turn_notEnabled {s : State} (hbusy : s.seq.mode = .busy → s.seq.pending = true)
    (hidle : s.seq.mode = .idle → s.plan = []) : turn s = s := by
  apply turn_of_not_canMove
  cases hm : s.seq.mode with
  | idle => simp [canMove, hm, hidle hm]
  | busy => simp [canMove, hm, hbusy hm]
  | fault => simp [canMove, hm]

/-- Entering a raise neither begins nor ends a pass (R96). -/
theorem State.takeRaise_busy_iff (s : State) : s.takeRaise.seq.mode = .busy ↔ s.seq.mode = .busy := by
  rcases s.takeRaise_cases with ⟨e, -⟩ | ⟨c, hm, -, -, e⟩ <;> rw [e]
  simp [hm]

theorem State.takeRaise_idle {s : State} (h : s.takeRaise.seq.mode = .idle) : s.seq.mode = .idle := by
  rcases s.takeRaise_cases with ⟨e, -⟩ | ⟨c, hm, -⟩
  · rwa [e] at h
  · exact hm

section
variable {s : State} {rest : List Event}

theorem stepEvent_turn (hs : s.schedule = .turn :: rest) : stepEvent s = .next (turn (s.taken rest)) := by
  simp [stepEvent, hs]

theorem stepEvent_ack (hs : s.schedule = .ack :: rest) : stepEvent s = .next (acknowledge (s.taken rest)) := by
  simp [stepEvent, hs]

theorem stepEvent_xfail (hs : s.schedule = .xfail :: rest) : stepEvent s = .next (xfail (s.taken rest)) := by
  simp [stepEvent, hs]

end

/-- Settles O34: an event that is not enabled, taken off the schedule, leaves the block as it is (`exec_start_notIdle`,
`acknowledge_notEnabled`, `xfail_notEnabled`, `turn_notEnabled`), and entering a raise that is due enables none. -/
theorem eventsNotEnabledChangeNothing : Obligations.EventsNotEnabledChangeNothing := by
  intro s rest t
  have htaken : s.takeRaise.taken rest = t := by simp only [State.taken, State.takeRaise_moment, t]
  have hbusy : t.seq.mode = .busy ↔ s.seq.mode = .busy := s.takeRaise_busy_iff
  have hpending : t.seq.pending = s.seq.pending := s.takeRaise_pending
  have hplan : t.plan = s.plan := s.takeRaise_plan
  have hschedule {events : List Event} (hs : s.schedule = events) : s.takeRaise.schedule = events :=
    s.takeRaise_schedule.trans hs
  refine ⟨fun i hi hm hs => ?request, fun hs h => ?ack, fun hs h => ?xfail, fun hs h => ?turn⟩
  case request =>
    have hdecode : decode (encode i) = .ok i := by
      rcases hi with rfl | rfl | rfl | rfl | rfl <;> exact decodeOfEncode _ rfl
    rw [presentedInstructionRuns s _ rest i hs hdecode]
    exact exec_start_notIdle hi (mt State.takeRaise_idle hm)
  case ack =>
    rw [step, stepEvent_ack (hschedule hs), htaken, acknowledge_notEnabled (by rwa [ne_eq, hbusy, hpending])]
  case xfail =>
    rw [step, stepEvent_xfail (hschedule hs), htaken, xfail_notEnabled (by rwa [ne_eq, hbusy])]
  case turn =>
    rw [step, stepEvent_turn (hschedule hs), htaken, turn_notEnabled]
    · intro hb
      rcases h with ⟨-, hp⟩ | hm | ⟨hm, -⟩
      · exact hpending.trans hp
      · exact nomatch hm.symm.trans (hbusy.mp hb)
      · exact nomatch hm.symm.trans (hbusy.mp hb)
    · intro hi
      have hm : s.seq.mode = .idle := State.takeRaise_idle hi
      simp only [hm, reduceCtorEq, false_and, false_or, true_and] at h
      exact hplan.trans h

/-- `EMIT` as a step of the block: on a turn, and with nothing scheduled (R77). -/
theorem step_emit {s : State} {rest : List Event} {c : Chip}
    (hs : s.schedule = .turn :: rest ∨ (s.schedule = [] ∧ rest = [])) (hm : s.seq.mode = .busy)
    (hp : s.seq.pending = false) (hc : s.seq.chip.toNat = c.val) :
    step s = .next { s with schedule := rest, moment := s.moment + 1, out := s.out ++ [cmdOf Config.T c s.seq.op],
                            seq := { s.seq with pending := true } } := by
  have hturn : turn (s.taken rest) = emit (s.taken rest) := by simp [turn, hm]
  have hstep : step s = .next (turn (s.taken rest)) := by
    rw [step_of_notIdle s (by simp [hm])]
    rcases hs with hs | ⟨hs, rfl⟩
    · exact stepEvent_turn hs
    · simp [stepEvent, hs, canMove, hm, hp, hc]
  rw [hstep, hturn, emit, emitWith_enabled Config.T (s.taken rest) c hm hp hc]

/-- `ACK` as a step of the block (R78, R79, R85). -/
theorem step_ack {s : State} {rest : List Event} {c : Chip} (hs : s.schedule = .ack :: rest) (hm : s.seq.mode = .busy)
    (hp : s.seq.pending = true) (hc : s.seq.chip.toNat = c.val) :
    step s = .next { s with schedule := rest, moment := s.moment + 1, seq := acknowledged s.seq,
                            L := s.L.writeBytes (baseAddrOf c s.seq.op) (cmdOf Config.T c s.seq.op).bytes.toList } := by
  rw [step_of_notIdle s (by simp [hm]), stepEvent_ack hs, acknowledge,
    ackWith_enabled Config.T (s.taken rest) c hm hp hc]

/-- Settles O35, by `step_emit`. -/
theorem emitAppendsOneCommand : Obligations.EmitAppendsOneCommand := fun s _ c hs hm hp hc =>
  ⟨cmdOf Config.T c s.seq.op, step_emit hs hm hp hc, baseAddrOf_toNat c s.seq.op, cmdOf_byte Config.T c s.seq.op⟩

/-- The sequencer after an acknowledgment in `BUSY`, field by field (R78, R79). -/
theorem acknowledged_eq {q : Seq} (hm : q.mode = .busy) :
    acknowledged q = { mode := if q.op = 255 then .idle else .busy, chip := q.chip,
                       op := if q.op = 255 then 255 else q.op + 1, pending := false, cause := q.cause } := by
  by_cases h : q.op = 255
  · simp [acknowledged_last h, h]
  · rw [acknowledged_notLast h, if_neg h, if_neg h, ← hm]

/-- Settles O36: the step is `step_ack`, and the map it leaves is read by `read?_after_cmdOf`. -/
theorem ackWritesAndAdvances : Obligations.AckWritesAndAdvances := by
  intro s rest c hs hm hp hc
  refine ⟨_, acknowledged_eq hm ▸ step_ack hs hm hp hc, fun i => ?own, fun a ha => ?other⟩
  case own =>
    have hstep : BitVec.ofNat 3 (c.val * 2048 + s.seq.op.toNat * 8 + i.toNat) = i := by
      apply BitVec.eq_of_toNat_eq
      rw [BitVec.toNat_ofNat]
      omega
    rw [read?_after_cmdOf, if_pos (by omega), hstep]
  case other => rw [read?_after_cmdOf, if_neg (by omega)]

/-- A turn in `BUSY` leaves the pass running (R77). -/
theorem turn_busy_mode {s : State} (hm : s.seq.mode = .busy) : (turn s).seq.mode = .busy := by
  have hturn : turn s = emit s := by simp [turn, hm]
  rw [hturn, emit]
  rcases emitWith_cases Config.T s with e | ⟨c, -, -, -, e⟩ <;> rw [e] <;> exact hm

/-- An acknowledgment ends the pass at the last opcode only (R78, R79). -/
theorem acknowledge_ends_pass {s : State} (hm : s.seq.mode = .busy) (ht : (acknowledge s).seq.mode ≠ .busy) :
    s.seq.op = 255 ∧ s.seq.pending = true ∧ (acknowledge s).seq.mode = .idle := by
  rcases ackWith_cases Config.T s with e | ⟨c, -, hp, -, e⟩ <;> rw [acknowledge, e] at ht ⊢
  · exact absurd hm ht
  · by_cases hlast : s.seq.op = 255
    · exact ⟨hlast, hp, by rw [acknowledged_last hlast]⟩
    · rw [acknowledged_notLast hlast] at ht
      exact absurd hm ht

/-- A request presented outside `IDLE` leaves the sequencer, `out` and `L` alone (R76, R96, R100). -/
theorem step_request_notIdle {s t : State} {r : Request} {rest : List Event} (hm : s.seq.mode ≠ .idle)
    (hs : s.schedule = .request r :: rest) (h : step s = .next t) :
    t.seq = s.seq ∧ t.out = s.out ∧ t.L = s.L := by
  rw [step_of_notIdle s hm] at h
  cases hd : decode r with
  | ok i =>
    rw [stepEvent_request hs hd] at h
    obtain ⟨hseq, -, hout, hL, -⟩ := exec_notIdle i (s.taken rest) t hm h
    exact ⟨hseq, hout, hL⟩
  | error why => simp [stepEvent, hs, hd] at h

/-- Settles O40: of the events of a schedule only an acknowledgment (`acknowledge_ends_pass`), `xfail` and `rst` end a pass,
and a request touches nothing of it (`step_request_notIdle`). -/
theorem runningPassNotDiverted : Obligations.RunningPassNotDiverted := by
  intro s t hm h
  have hidle : s.seq.mode ≠ .idle := by simp [hm]
  refine ⟨fun hleft => ?_, fun r rest hs => ?_⟩
  · have hstep := h
    rw [step_of_notIdle s hidle] at hstep
    rcases stepEvent_cases s with ⟨-, -, e⟩ | ⟨-, -, e⟩ | ⟨rest, -, e⟩ | ⟨rest, hs, e⟩ | ⟨rest, hs, e⟩ | ⟨rest, hs, e⟩ |
      ⟨r, rest, i, hs, -, -⟩ | ⟨r, rest, why, -, -, e⟩
    · cases e.symm.trans hstep
      exact absurd hm hleft
    · cases e.symm.trans hstep
      exact absurd (turn_busy_mode (s := s.taken _) hm) hleft
    · cases e.symm.trans hstep
      exact absurd (turn_busy_mode (s := s.taken rest) hm) hleft
    · cases e.symm.trans hstep
      exact .inl ⟨rest, hs, acknowledge_ends_pass (s := s.taken rest) hm hleft⟩
    · cases e.symm.trans hstep
      have hfail : xfail (s.taken rest) = (s.taken rest).enterFault .transportFailure none := if_pos hm
      exact .inr (.inl ⟨rest, hs, by simp [hfail]⟩)
    · exact .inr (.inr ⟨rest, hs⟩)
    · obtain ⟨hseq, -⟩ := step_request_notIdle hidle hs h
      exact absurd (hseq ▸ hm) hleft
    · cases e.symm.trans hstep
  · obtain ⟨hseq, hout, hL⟩ := step_request_notIdle hidle hs h
    exact ⟨hseq, hout, fun a => by rw [hL]⟩

/-- From `FAULT` a step that is no reset takes an event off the schedule and leaves the sequencer, `out` and `L` alone (R94,
R95; for a `WR`, log entry 8). -/
theorem step_fault {s t : State} (hm : s.seq.mode = .fault) (hs : ∀ e ∈ s.schedule, e ≠ .rst) (h : step s = .next t) :
    t.seq = s.seq ∧ t.out = s.out ∧ t.L = s.L ∧ t.schedule = s.schedule.tail := by
  have hidle : s.seq.mode ≠ .idle := by simp [hm]
  have hbusy : s.seq.mode ≠ .busy := by simp [hm]
  rw [step_of_notIdle s hidle] at h
  cases hsched : s.schedule with
  | nil =>
    rw [stepEvent_of_fault hm hsched] at h
    cases h
    simp [hsched]
  | cons e rest =>
    have htaken : (s.taken rest).seq = s.seq ∧ (s.taken rest).out = s.out ∧ (s.taken rest).L = s.L ∧
      (s.taken rest).schedule = rest := ⟨rfl, rfl, rfl, rfl⟩
    cases e with
    | turn =>
      rw [stepEvent_turn hsched, turn_notEnabled (s := s.taken rest) (by simp [hm]) (by simp [hm])] at h
      cases h
      exact htaken
    | ack =>
      rw [stepEvent_ack hsched, acknowledge_notEnabled (s := s.taken rest) (.inl hbusy)] at h
      cases h
      exact htaken
    | xfail =>
      rw [stepEvent_xfail hsched, xfail_notEnabled (s := s.taken rest) hbusy] at h
      cases h
      exact htaken
    | rst => exact absurd rfl (hs .rst (by simp [hsched]))
    | request r =>
      cases hd : decode r with
      | ok i =>
        rw [stepEvent_request hsched hd] at h
        obtain ⟨hseq, -, hout, hL, hrest⟩ := exec_notIdle i (s.taken rest) t hidle h
        exact ⟨hseq, hout, hL, hrest⟩
      | error why => simp [stepEvent, hsched, hd] at h

theorem stepN_succ_next {n : Nat} {s t : State} (h : stepN (n + 1) s = .next t) :
    ∃ u, step s = .next u ∧ stepN n u = .next t := by
  simp only [stepN] at h
  split at h
  · next u hu => exact ⟨u, hu, h⟩
  · cases h
  · cases h

/-- Settles O48, by induction on the number of steps: each is `step_fault`, and the events it leaves hold no reset. -/
theorem faultEndsFullPass : Obligations.FaultEndsFullPass := by
  intro s t n
  induction n generalizing s with
  | zero =>
    intro _ _ h
    cases h
    exact ⟨rfl, rfl, fun _ => rfl⟩
  | succ n ih =>
    intro hm hs h
    obtain ⟨u, hu, h⟩ := stepN_succ_next h
    obtain ⟨hseq, hout, hL, hsched⟩ := step_fault hm hs hu
    have hfault : u.seq.mode = .fault := by rw [hseq, hm]
    have hnorst : ∀ e ∈ u.schedule, e ≠ .rst := fun e he => hs e (List.mem_of_mem_tail (hsched ▸ he))
    simpa [hseq, hout, hL] using ih u hfault hnorst h

end Sys2Proof.Machine

/-! ### Runs of a pass and of a full pass -/

namespace Sys2Proof.Machine

open Sys2Proof.Safety

/-- Two runs one after the other are one run. -/
theorem stepN_trans {a b : Nat} {s t u : State} (h : stepN a s = .next t) (h' : stepN b t = .next u) :
    stepN (a + b) s = .next u :=
  (stepN_add a b s t h).trans h'

/-- The block after commands have been emitted and acknowledged one by one, each of them in two steps (R80, R85); the
sequencer then stands at `q`. -/
def State.exchanged (s : State) (ks : List Cmd) (q : Seq) (rest : List Event) : State :=
  { s with seq := q, out := s.out ++ ks, L := applyCmds s.L ks, schedule := rest, moment := s.moment + 2 * ks.length }

@[simp] theorem State.exchanged_out (s : State) (ks : List Cmd) (q : Seq) (rest : List Event) :
    (s.exchanged ks q rest).out = s.out ++ ks := rfl
@[simp] theorem State.exchanged_L (s : State) (ks : List Cmd) (q : Seq) (rest : List Event) :
    (s.exchanged ks q rest).L = applyCmds s.L ks := rfl

theorem State.exchanged_nil (s : State) : s.exchanged [] s.seq s.schedule = s := by
  simp [State.exchanged, applyCmds]

theorem State.exchanged_append (s : State) (ks ks' : List Cmd) (q q' : Seq) (events rest : List Event) :
    (s.exchanged ks q events).exchanged ks' q' rest = s.exchanged (ks ++ ks') q' rest := by
  simp only [State.exchanged, List.append_assoc, applyCmds_append, List.length_append, Nat.mul_add, Nat.add_assoc]

/-- The sequencer after a completed pass of chip `c` (R79). -/
def doneSeq (c : Chip) (cause : Cause) : Seq :=
  { mode := .idle, chip := BitVec.ofNat 2 c.val, op := 255, pending := false, cause := cause }

theorem acknowledged_passSeq_last (c : Chip) (cause : Cause) : acknowledged (passSeq c 255#8 cause) = doneSeq c cause :=
  acknowledged_last rfl

theorem acknowledged_passSeq (c : Chip) (cause : Cause) {n : Nat} (hn : n + 1 < 256) :
    acknowledged (passSeq c (BitVec.ofNat 8 n) cause) = passSeq c (BitVec.ofNat 8 (n + 1)) cause := by
  have hlast : BitVec.ofNat 8 n ≠ 255#8 := by bv_omega
  rw [acknowledged_notLast hlast, BitVec.ofNat_add]
  rfl

/-- The first `n + 1` commands, the last of them by its number (R72). -/
theorem encodeCmds_take_add_one (T : Table) (c : Chip) {n : Nat} (hn : n < 256) :
    (encodeCmds T c).take (n + 1) = (encodeCmds T c).take n ++ [cmdOf T c (BitVec.ofNat 8 n)] := by
  have htake := encodeCmds_take_succ T c (BitVec.ofNat 8 n)
  rwa [BitVec.toNat_ofNat, Nat.mod_eq_of_lt hn] at htake

section
variable {s : State} {rest : List Event} {c : Chip} {cause : Cause}

/-- One command of a pass: `EMIT`, then `ACK` (R77, R78). -/
theorem stepN_pair {op : Opcode} (hs : s.schedule = .turn :: .ack :: rest) (hq : s.seq = passSeq c op cause) :
    stepN 2 s = .next (s.exchanged [cmdOf Config.T c op] (acknowledged (passSeq c op cause)) rest) := by
  have hchip : (passSeq c op cause).chip.toNat = c.val := chipField_toNat c.val c.isLt
  have hemit := step_emit (c := c) (.inl hs) (by rw [hq]; rfl) (by rw [hq]; rfl) (by rw [hq]; exact hchip)
  rw [hq] at hemit
  exact stepN_trans (stepN_one _ _ hemit) (stepN_one _ _ (step_ack (c := c) rfl rfl rfl hchip))

/-- A pass after its first `n` commands, with the last still to come (R80). -/
theorem stepN_pairs (n : Nat) (hn : n < 256) (hs : s.schedule = pairs n ++ rest) (hq : s.seq = passSeq c 0 cause) :
    stepN (2 * n) s =
      .next (s.exchanged ((encodeCmds Config.T c).take n) (passSeq c (BitVec.ofNat 8 n) cause) rest) := by
  induction n generalizing rest with
  | zero =>
    have hrest : rest = s.schedule := hs.symm
    have hstart : passSeq c (BitVec.ofNat 8 0) cause = s.seq := hq.symm
    rw [List.take_zero, hrest, hstart, State.exchanged_nil]
    rfl
  | succ n ih =>
    rw [pairs_succ, List.append_assoc] at hs
    have hlt := Nat.lt_of_succ_lt hn
    have hnext := stepN_trans (ih hlt hs) (stepN_pair rfl rfl)
    rwa [State.exchanged_append, acknowledged_passSeq c cause hn, ← encodeCmds_take_add_one Config.T c hlt] at hnext

/-- A completed pass (R79, R80): the first 255 commands, then the last one. -/
theorem stepN_pass (hs : s.schedule = pairs 256 ++ rest) (hq : s.seq = passSeq c 0 cause) :
    stepN 512 s = .next (s.exchanged (encodeCmds Config.T c) (doneSeq c cause) rest) := by
  have hall : (encodeCmds Config.T c).take 256 = encodeCmds Config.T c :=
    List.take_of_length_le (Nat.le_of_eq (encodeCmds_length Config.T c))
  rw [pairs_succ 255, List.append_assoc] at hs
  have hdone := stepN_trans (stepN_pairs 255 (by decide) hs hq) (stepN_pair rfl rfl)
  rwa [State.exchanged_append, ← encodeCmds_take_add_one Config.T c (by decide), hall,
    acknowledged_passSeq_last c cause] at hdone

/-- The request for a legal chip opens the pass (R36, R76). -/
theorem step_encode (hs : s.schedule = .request ⟨.encode, c.val⟩ :: rest) (hm : s.seq.mode = .idle)
    (hd : s.due = none) : step s = .next ((s.taken rest).opened c) := by
  have hexec : stepEvent s = .next (start c.val (s.taken rest)) := by
    obtain rfl | rfl | rfl := chip_eq c
    · exact stepEvent_request (i := .encode0) hs rfl
    · exact stepEvent_request (i := .encode1) hs rfl
    · exact stepEvent_request (i := .encode2) hs rfl
  rw [step_of_none s hd, hexec, start_opened c (s.taken rest) hm]

theorem step_fullpass (hs : s.schedule = .request ⟨.fullpass, 0⟩ :: rest) (hm : s.seq.mode = .idle)
    (hd : s.due = none) : step s = .next (State.opened { s.taken rest with plan := [1, 2] } 0) := by
  rw [step_of_none s hd, stepEvent_request (i := .fullpass) hs rfl]
  exact execFullpass_idle (s.taken rest) hm

/-- A turn in `IDLE` makes the next request of a full pass (R75; log entry 7). -/
theorem step_nextRequest {plan : List Nat} (hs : s.schedule = .turn :: rest) (hm : s.seq.mode = .idle)
    (hplan : s.plan = c.val :: plan) : step s = .next (State.opened { s.taken rest with plan := plan } c) := by
  have hturn : turn (s.taken rest) = start c.val { s.taken rest with plan := plan } := by
    simp [turn, continuePlan, hm, hplan]
  rw [step, State.takeRaise_of_plan_ne_nil (by simp [hplan]), stepEvent_turn hs, hturn,
    start_opened c { s.taken rest with plan := plan } hm]

/-- The request and the pass it opens (R76 to R80). -/
theorem stepN_encode (hs : s.schedule = .request ⟨.encode, c.val⟩ :: (pairs 256 ++ rest)) (hm : s.seq.mode = .idle)
    (hd : s.due = none) :
    stepN 513 s = .next (((s.taken (pairs 256 ++ rest)).opened c).exchanged (encodeCmds Config.T c)
      (doneSeq c s.seq.cause) rest) :=
  stepN_trans (a := 1) (stepN_one s _ (step_encode hs hm hd)) (stepN_pass rfl rfl)

/-- The next request of a full pass and the pass it opens (R75; log entry 7). -/
theorem stepN_nextRequest {plan : List Nat} (hs : s.schedule = .turn :: (pairs 256 ++ rest)) (hm : s.seq.mode = .idle)
    (hplan : s.plan = c.val :: plan) :
    stepN 513 s = .next ((State.opened { s.taken (pairs 256 ++ rest) with plan := plan } c).exchanged
      (encodeCmds Config.T c) (doneSeq c s.seq.cause) rest) :=
  stepN_trans (a := 1) (stepN_one s _ (step_nextRequest hs hm hplan)) (stepN_pass rfl rfl)

end

/-- Settles O44: the request (`step_encode`) and the 256 commands of the pass (`stepN_pass`). -/
theorem completePassRefinesEncode : Obligations.CompletePassRefinesEncode := fun _ _ _ hm hd hs =>
  ⟨_, stepN_encode hs hm hd, rfl, rfl, rfl⟩

/-- Settles O45: the request, the first `n` commands (`stepN_pairs`), and one more `EMIT` (`step_emit`). -/
theorem partialPassEmitsPrefix : Obligations.PartialPassEmitsPrefix := by
  intro s c n rest hn hm hd hs
  have hop : (BitVec.ofNat 8 n).toNat = n := by rw [BitVec.toNat_ofNat, Nat.mod_eq_of_lt hn]
  have hrun := stepN_trans (stepN_one s _ (step_encode hs hm hd)) (stepN_pairs n hn rfl rfl)
  have hemit := stepN_trans hrun (stepN_one _ _ (step_emit (.inl rfl) rfl rfl (chipField_toNat c.val c.isLt)))
  refine ⟨⟨_, hrun, rfl, hop, rfl, rfl⟩, ⟨_, hemit, rfl, hop, rfl, ?_⟩⟩
  rw [encodeCmds_take_add_one Config.T c hn, ← List.append_assoc]
  rfl

/-- The run of a full pass (R75, R79): three requests, each with its pass, and the commands of the three. -/
theorem stepN_fullpass {s : State} {rest : List Event}
    (hs : s.schedule = .request ⟨.fullpass, 0⟩ ::
      (pairs 256 ++ .turn :: (pairs 256 ++ .turn :: (pairs 256 ++ rest))))
    (hm : s.seq.mode = .idle) (hd : s.due = none) :
    ∃ t, stepN 1539 s = .next t ∧ t.seq = doneSeq 2 s.seq.cause ∧ t.plan = [] ∧ t.schedule = rest ∧
      t.out = s.out ++ fullPassCmds Config.T ∧ t.L = applyCmds s.L (fullPassCmds Config.T) := by
  have hfirst := stepN_trans (stepN_one s _ (step_fullpass hs hm hd)) (stepN_pass rfl rfl)
  have hsecond := stepN_trans hfirst (stepN_nextRequest (c := 1) (plan := [2]) rfl rfl rfl)
  have hthird := stepN_trans hsecond (stepN_nextRequest (c := 2) (plan := []) rfl rfl rfl)
  refine ⟨_, hthird, rfl, rfl, rfl, ?_, ?_⟩
  · simp [fullPassCmds]
  · simp [fullPassCmds, applyCmds_append]

/-- Settles O47: the run is `stepN_fullpass`, its commands leave the three images (`read?_applyCmds_fullPassCmds`), and `JOIN`
of a word's three planes is the word (`joinWord_planeBytes`). -/
theorem fullPassReconstructsTable : Obligations.FullPassReconstructsTable := by
  intro s rest hm hd hs
  obtain ⟨t, hrun, hseq, hplan, hsched, hout, hL⟩ := stepN_fullpass hs hm hd
  refine ⟨t, hrun, by rw [hseq]; rfl, by rw [hseq]; rfl, hplan, hsched, hout, fullPassCmds_length Config.T,
    fun op st => ?planes, fun a ha => ?above⟩
  case planes =>
    rw [hL]
    exact ⟨_, _, _, read?_applyCmds_fullPassCmds Config.T s.L 2 op st, read?_applyCmds_fullPassCmds Config.T s.L 1 op st,
      read?_applyCmds_fullPassCmds Config.T s.L 0 op st, joinWord_planeBytes (Config.T op st)⟩
  case above =>
    rw [hL]
    exact read?_applyCmds_fullPassCmds_above Config.T s.L a ha

end Sys2Proof.Machine

/-! ### What the chips may hold while a command is in flight -/

namespace Sys2Proof.Machine

open Sys2Proof.Safety

/-- What is presented: nothing, or the command of the sequencer's position with its chip legal (R36, R77). -/
theorem inFlight?_cases (s : State) :
    inFlight? s = none ∨
    ∃ c : Chip, s.seq.pending = true ∧ s.seq.chip.toNat = c.val ∧ inFlight? s = some (cmdOf Config.T c s.seq.op) := by
  cases hp : s.seq.pending with
  | false => exact .inl (inFlight?_of_not_pending s hp)
  | true =>
    by_cases hc : s.seq.chip.toNat < 3
    · exact .inr ⟨⟨_, hc⟩, rfl, rfl, inFlight?_of_pending s ⟨_, hc⟩ hp rfl⟩
    · left
      simp [inFlight?, hp, currentCmd?, chipOf?_of_ge _ (Nat.le_of_not_lt hc)]

theorem programmed?_of_none {s : State} (h : inFlight? s = none) (a : LogAddr) :
    programmed? s a = s.L.read? a.toNat := by
  simp [programmed?, h]

/-- While a command of the block is in flight, its byte is seen where it covers the address and has landed (R26, U7). -/
theorem programmed?_of_inFlight {s : State} {c : Chip} {op : Opcode} (h : inFlight? s = some (cmdOf Config.T c op))
    (a : LogAddr) :
    programmed? s a =
      if Config.landed s.moment a.toNat = true ∧ covers (cmdOf Config.T c op) a.toNat then imageAt? Config.T a.toNat
      else s.L.read? a.toNat := by
  simp only [programmed?, h, cmdOf_addr, read?_writeBytes_cmdOf, ite_and]

/-- The addresses a command of the block covers are the logical addresses of its steps (R23, R65). -/
theorem eq_logAddrOf_of_covers {T : Table} {c : Chip} {op : Opcode} {a : LogAddr}
    (h : covers (cmdOf T c op) a.toNat) : ∃ st, a = logAddrOf c op st := by
  rw [covers_cmdOf_iff] at h
  refine ⟨BitVec.ofNat 3 a.toNat, BitVec.eq_of_toNat_eq ?_⟩
  rw [logAddrOf_toNat, BitVec.toNat_ofNat]
  omega

/-- Settles O38: with no command in flight `L` is seen (`programmed?_of_none`), and with one its byte at a covered address
where it has landed (`programmed?_of_inFlight`), whichever addresses the free value says these are. -/
theorem inFlightBytesOldOrNew : Obligations.InFlightBytesOldOrNew := by
  intro s a
  rcases inFlight?_cases s with hnone | ⟨c, hp, hc, hk⟩
  · exact .inl (programmed?_of_none hnone a)
  · have hview := programmed?_of_inFlight hk a
    split at hview
    · next hnew =>
      obtain ⟨st, rfl⟩ := eq_logAddrOf_of_covers hnew.2
      exact .inr ⟨c, st, hp, hc, rfl, hview.trans (imageAt?_logAddrOf Config.T c s.seq.op st)⟩
    · exact .inl hview

end Sys2Proof.Machine

/-! ### The way out of `FAULT` -/

namespace Sys2Proof.Machine

/-- What a step from `FAULT` can do: reset the block, or leave the sequencer, the fault record, `out` and `L` alone (R94, R95;
for a `WR`, log entry 8). -/
theorem step_fault_cases {s t : State} (hm : s.seq.mode = .fault) (h : step s = .next t) :
    (∃ rest, s.schedule = .rst :: rest ∧ t = (s.taken rest).resetEvent) ∨
    (t.seq = s.seq ∧ t.faultRecord = s.faultRecord ∧ t.out = s.out ∧ t.L = s.L) := by
  have hidle : s.seq.mode ≠ .idle := by simp [hm]
  have hbusy : s.seq.mode ≠ .busy := by simp [hm]
  have hturn (rest : List Event) : turn (s.taken rest) = s.taken rest :=
    turn_notEnabled (by simp [hm]) (by simp [hm])
  rw [step_of_notIdle s hidle] at h
  rcases stepEvent_cases s with ⟨-, -, e⟩ | ⟨-, -, e⟩ | ⟨rest, -, e⟩ | ⟨rest, -, e⟩ | ⟨rest, -, e⟩ | ⟨rest, hs, e⟩ |
    ⟨r, rest, i, -, -, e⟩ | ⟨r, rest, why, -, -, e⟩ <;> rw [e] at h
  · cases h
    exact .inr ⟨rfl, rfl, rfl, rfl⟩
  · rw [hturn] at h
    cases h
    exact .inr ⟨rfl, rfl, rfl, rfl⟩
  · rw [hturn] at h
    cases h
    exact .inr ⟨rfl, rfl, rfl, rfl⟩
  · rw [acknowledge_notEnabled (s := s.taken rest) (.inl hbusy)] at h
    cases h
    exact .inr ⟨rfl, rfl, rfl, rfl⟩
  · rw [xfail_notEnabled (s := s.taken rest) hbusy] at h
    cases h
    exact .inr ⟨rfl, rfl, rfl, rfl⟩
  · cases h
    exact .inl ⟨rest, hs, rfl⟩
  · obtain ⟨hseq, hrecord, hout, hL, -⟩ := exec_notIdle i (s.taken rest) t hidle h
    exact .inr ⟨hseq, hrecord, hout, hL⟩
  · cases h

/-- Settles O39, by `step_fault_cases`. -/
theorem faultLeftOnlyByReset : Obligations.FaultLeftOnlyByReset := by
  intro s t hm h
  rcases step_fault_cases hm h with ⟨rest, hs, rfl⟩ | ⟨hseq, hrecord, hout, hL⟩
  · exact .inl ⟨rest, hs, rfl⟩
  · exact .inr ⟨hseq, hrecord, hout, fun a => by rw [hL]⟩

end Sys2Proof.Machine

/-! ### What a completed pass leaves in `L` -/

namespace Sys2Proof.Machine

open Sys2Proof.Safety

/-- After the commands of a pass the chip's segment holds its image (R89). -/
theorem read?_applyCmds_encodeCmds (T : Table) (m : Memory) (c : Chip) (op : Opcode) (st : Step) :
    (applyCmds m (encodeCmds T c)).read? (logAddrOf c op st).toNat = some (planeByte c (T op st)) := by
  rw [read?_applyCmds T _ (fun k hk => ⟨c, (mem_encodeCmds T c k).mp hk⟩),
    if_pos ⟨_, (mem_encodeCmds T c _).mpr ⟨op, rfl⟩, covers_logAddrOf T c op st⟩, imageAt?_logAddrOf]

/-- The commands of a pass leave every address outside the chip's segment as it was (R27, R89). -/
theorem read?_applyCmds_encodeCmds_outside (T : Table) (m : Memory) (c : Chip) (a : Nat) (ha : ¬ inSegment c a) :
    (applyCmds m (encodeCmds T c)).read? a = m.read? a := by
  rw [read?_applyCmds T _ (fun k hk => ⟨c, (mem_encodeCmds T c k).mp hk⟩), if_neg]
  rintro ⟨k, hk, hcovers⟩
  obtain ⟨op, rfl⟩ := (mem_encodeCmds T c k).mp hk
  rw [covers_cmdOf_iff] at hcovers
  have hop := op.isLt
  exact ha ⟨by omega, by omega⟩

/-- Settles O46: the run is `stepN_encode`, and its commands leave the chip's image in the segment
(`read?_applyCmds_encodeCmds`) and nothing outside it (`read?_applyCmds_encodeCmds_outside`). -/
theorem completePassProgramsChip : Obligations.CompletePassProgramsChip := by
  intro s c rest hm hd hs
  refine ⟨_, stepN_encode hs hm hd, fun op st => ?image, fun a ha => ?outside⟩
  case image =>
    rw [romImage_romAddrOf, and_self, State.exchanged_L, State.opened_L]
    exact read?_applyCmds_encodeCmds Config.T s.L c op st
  case outside =>
    rw [State.exchanged_L, State.opened_L]
    exact read?_applyCmds_encodeCmds_outside Config.T s.L c a ha

end Sys2Proof.Machine

/-! ### Reading the text of a command back -/

namespace Sys2Proof.Machine

/-- A digit is read back in either case of the letters (R84). -/
theorem hexValue?_hexDigit (upper : Bool) (d : BitVec 4) : hexValue? (hexDigit upper d) = some d := by
  revert d
  cases upper <;> decide

/-- Two digits that stand one after the other are read as one byte (R84). -/
theorem byteAt?_of_digits {t : List Byte} {k : Nat} {upper : Bool} {h l : BitVec 4}
    (hh : t[k - 1]? = some (hexDigit upper h)) (hl : t[k]? = some (hexDigit upper l)) : byteAt? t k = some (h ++ l) := by
  simp only [byteAt?, List.getD_eq_getElem?_getD, hh, hl, Option.getD_some, hexValue?_hexDigit]

/-- What a text of the shape of R83 is read as, from what stands at the positions of R84. -/
theorem readText?_eq {t : List Byte} {hi lo : Byte} {bytes : Vector Byte 8} (hshape : wrShape t = true)
    (hhi : byteAt? t 4 = some hi) (hlo : byteAt? t 6 = some lo)
    (hbytes : ∀ i : Fin 8, byteAt? t (9 + 3 * i.val) = some bytes[i]) :
    readText? t = some { addr := hi ++ lo, bytes := bytes } := by
  have hvec : #v[bytes[0], bytes[1], bytes[2], bytes[3], bytes[4], bytes[5], bytes[6], bytes[7]] = bytes := by
    ext i hi
    interval_cases i <;> rfl
  simp only [Fin.forall_fin_succ, Fin.getElem_fin, Fin.val_succ, Fin.val_zero, Nat.reduceAdd, Nat.reduceMul] at hbytes
  simp [readText?, hshape, hhi, hlo, hbytes, hvec]

section
variable (upper : Bool) (eol : List Byte) (addr : LogAddr) (bytes : Vector Byte 8)

theorem wrShape_wrTextWith : wrShape (wrTextWith upper eol addr bytes) = true := by
  obtain ⟨-, -, hletters, -, hbytes, -⟩ := commandTextLayout.1 upper eol addr bytes
  have hspaces : ∀ i < 8, (wrTextWith upper eol addr bytes).getD (7 + 3 * i) 0 = 0x20 := fun i hi => by
    rw [List.getD_eq_getElem?_getD, (hbytes ⟨i, hi⟩).1]
    rfl
  simp only [wrShape, hletters, wrTextWith_drop, Bool.and_eq_true, List.all_eq_true, List.mem_range, beq_iff_eq]
  exact ⟨⟨trivial, hspaces⟩, rfl⟩

/-- The address stands at characters 4 to 7 (R84). -/
theorem byteAt?_wrTextWith_addr :
    byteAt? (wrTextWith upper eol addr bytes) 4 = some (addr.extractLsb' 8 8) ∧
      byteAt? (wrTextWith upper eol addr bytes) 6 = some (addr.extractLsb' 0 8) := by
  obtain ⟨-, -, -, hdigit, -⟩ := commandTextLayout.1 upper eol addr bytes
  have hhi := byteAt?_of_digits (k := 4) (hdigit 0 (by decide)) (hdigit 1 (by decide))
  have hlo := byteAt?_of_digits (k := 6) (hdigit 2 (by decide)) (hdigit 3 (by decide))
  have hjoin (n : Nat) : addr.extractLsb' (n + 4) 4 ++ addr.extractLsb' n 4 = addr.extractLsb' n 8 :=
    BitVec.extractLsb'_append_extractLsb'_eq_extractLsb' rfl
  exact ⟨hhi.trans (congrArg some (hjoin 8)), hlo.trans (congrArg some (hjoin 0))⟩

/-- Byte `i` stands at characters `9 + 3i` and `10 + 3i` (R84). -/
theorem byteAt?_wrTextWith_byte (i : Fin 8) :
    byteAt? (wrTextWith upper eol addr bytes) (9 + 3 * i.val) = some bytes[i] := by
  obtain ⟨-, -, -, -, hbyte, -⟩ := commandTextLayout.1 upper eol addr bytes
  obtain ⟨-, hhigh, hlow⟩ := hbyte i
  have hpos : 9 + 3 * i.val - 1 = 8 + 3 * i.val := by omega
  rw [byteAt?_of_digits (hpos ▸ hhigh) hlow]
  exact congrArg some BitVec.extractLsb'_append_extractLsb'

end

/-- A text of the block is read back as its command (R84). -/
theorem readText?_wrTextWith (upper : Bool) (eol : List Byte) (k : Cmd) :
    readText? (wrTextWith upper eol k.addr k.bytes) = some k := by
  obtain ⟨hhi, hlo⟩ := byteAt?_wrTextWith_addr upper eol k.addr k.bytes
  have haddr : k.addr.extractLsb' 8 8 ++ k.addr.extractLsb' 0 8 = k.addr := BitVec.extractLsb'_append_extractLsb'
  rw [readText?_eq (wrShape_wrTextWith upper eol k.addr k.bytes) hhi hlo
    (byteAt?_wrTextWith_byte upper eol k.addr k.bytes), haddr]

/-- Settles O50, by `readText?_wrTextWith`: what can be read back tells the commands apart. -/
theorem commandTextReadsBack : Obligations.CommandTextReadsBack := by
  refine ⟨readText?_wrTextWith, fun upper eol k k' h => Option.some.inj ?_⟩
  rw [← readText?_wrTextWith upper eol k, h, readText?_wrTextWith]

end Sys2Proof.Machine

/-! ### `WR` on its own -/

namespace Sys2Proof.Machine

theorem execWr_idle {s : State} (hm : s.seq.mode = .idle) (addr : LogAddr) (bytes : Vector Byte 8) :
    exec (.wr addr bytes) s =
      .next { s.answerWith (.text (wrText addr bytes)) with L := s.L.writeBytes addr bytes.toList } := by
  simp only [exec, execWr, hm]

/-- Outside `IDLE` a `WR` on its own is not acknowledged (R78, R94; log entry 8). -/
theorem execWr_notIdle {s : State} (hm : s.seq.mode ≠ .idle) (addr : LogAddr) (bytes : Vector Byte 8) :
    exec (.wr addr bytes) s = .next (s.answerWith (.text (wrText addr bytes))) := by
  cases h : s.seq.mode with
  | idle => exact absurd h hm
  | busy => simp only [exec, execWr, h]
  | fault => simp only [exec, execWr, h]

/-- The eight addresses from one of the command format on are inside the 16-bit field (R35, R37). -/
theorem wr_wellFormed_toNat_le {addr : LogAddr} {bytes : Vector Byte 8}
    (h : (Instr.wr addr bytes).wellFormed = true) : addr.toNat + 8 ≤ 2 ^ 16 := by
  simp only [Instr.wellFormed, Bool.and_eq_true, beq_iff_eq] at h
  omega

/-- Settles O51: the step is `execWr_idle`, and the map it leaves is read by `Memory.read?_writeBytes`. -/
theorem wrWritesItsEightBytes : Obligations.WrWritesItsEightBytes := by
  intro s addr bytes hm hw
  have hread := s.L.read?_writeBytes addr bytes.toList
  rw [Vector.length_toList] at hread
  refine ⟨_, execWr_idle hm addr bytes, fun i => ?own, fun a ha => ?other⟩
  case own =>
    rw [hread _ (wr_wellFormed_toNat_le hw), if_pos (by omega), Nat.add_sub_cancel_left]
    simp
  case other => rw [hread _ (wr_wellFormed_toNat_le hw), if_neg (by omega)]

/-- Settles O52. -/
theorem wrOutsideIdleOnlyAnswers : Obligations.WrOutsideIdleOnlyAnswers := fun _ addr bytes hm =>
  execWr_notIdle hm addr bytes

end Sys2Proof.Machine

/-! ### Transport failure, and the mode a fault comes from -/

namespace Sys2Proof.Machine

open Sys2Proof.Safety

/-- `XFAIL` as a step of the block (R93, R94). -/
theorem step_xfail {s : State} {rest : List Event} (hs : s.schedule = .xfail :: rest) (hm : s.seq.mode = .busy) :
    step s = .next ((s.taken rest).enterFault .transportFailure none) := by
  rw [step_of_notIdle s (by simp [hm]), stepEvent_xfail hs, xfail, if_pos hm]

/-- Settles O37: the step is `step_xfail`, and what the chips may hold after it is what they may hold in any state
(`inFlightBytesOldOrNew`), fault entry keeping the position and `L`. -/
theorem xfailEntersFault : Obligations.XfailEntersFault := fun s rest hs hm =>
  ⟨_, step_xfail hs hm, rfl, inFlightBytesOldOrNew ((s.taken rest).enterFault .transportFailure none)⟩

/-- Settles O59: the step is `step_xfail`, which keeps the position, `out` and `L`, and the invariant says how far the pass has
come. -/
theorem transportFailureAftermath : Obligations.TransportFailureAftermath := by
  intro s t rest hinv hm hs h
  cases (step_xfail hs hm).symm.trans h
  obtain ⟨c, hc, hout, hL⟩ := hinv.pass (.inl hm)
  exact ⟨rfl, fun _ => rfl, c, hc, hL, hout⟩

/-- The cause from one sequencer to the next: it stays, is cleared, or becomes the fault that belongs to the mode (R97). -/
inductive CauseStep (q r : Seq) : Prop
  | kept (h : r.cause = q.cause)
  | cleared (h : r.cause = .none)
  | invalidChip (h : r.cause = .invalidChipIndex) (hm : q.mode = .idle)
  | transport (h : r.cause = .transportFailure) (hm : q.mode = .busy)

theorem causeStep_start (c : Nat) (s : State) : CauseStep s.seq (start c s).seq := by
  rcases start_cases c s with e | ⟨-, -, e⟩ | ⟨hm, -, e⟩ <;> rw [e]
  · exact .kept rfl
  · exact .kept rfl
  · exact .invalidChip rfl hm

theorem causeStep_raiseInvalidChip (s : State) (c : Nat) : CauseStep s.seq (s.raiseInvalidChip c).seq := by
  rcases s.raiseInvalidChip_cases c with ⟨hm, -, e⟩ | ⟨-, e⟩ | ⟨-, e⟩ <;> rw [e]
  · exact .invalidChip rfl hm
  · exact .kept rfl
  · exact .kept rfl

theorem emit_cause (s : State) : (emit s).seq.cause = s.seq.cause := by
  rcases emitWith_cases Config.T s with e | ⟨c, -, -, -, e⟩ <;> rw [emit, e]

theorem acknowledged_cause (q : Seq) : (acknowledged q).cause = q.cause := by
  by_cases hlast : q.op = 255
  · rw [acknowledged_last hlast]
  · rw [acknowledged_notLast hlast]

theorem acknowledge_cause (s : State) : (acknowledge s).seq.cause = s.seq.cause := by
  rcases ackWith_cases Config.T s with e | ⟨c, -, -, -, e⟩ <;> rw [acknowledge, e]
  exact acknowledged_cause s.seq

theorem causeStep_turn (s : State) : CauseStep s.seq (turn s).seq := by
  rcases turn_cases s with e | ⟨-, e⟩ | ⟨c, rest, -, -, e⟩ <;> rw [e]
  · exact .kept rfl
  · exact .kept (emit_cause s)
  · exact causeStep_start c { s with plan := rest }

theorem causeStep_xfail (s : State) : CauseStep s.seq (xfail s).seq := by
  rcases xfail_cases s with ⟨-, e⟩ | ⟨hm, e⟩ <;> rw [e]
  · exact .kept rfl
  · exact .transport rfl hm

theorem causeStep_exec {i : Instr} {s t : State} (h : exec i s = .next t) : CauseStep s.seq t.seq := by
  rcases exec_cases i s with ⟨a, e⟩ | ⟨c, -, e⟩ | ⟨c, e⟩ | ⟨-, e⟩ | ⟨a, addr, bs, -, e⟩ <;> rw [e] at h <;> cases h
  · exact .kept rfl
  · exact causeStep_raiseInvalidChip s c
  · exact causeStep_start c s
  · exact causeStep_start 0 { s with plan := [1, 2] }
  · exact .kept rfl

theorem causeStep_stepEvent {s t : State} (h : stepEvent s = .next t) : CauseStep s.seq t.seq := by
  rcases stepEvent_cases s with ⟨-, -, e⟩ | ⟨-, -, e⟩ | ⟨rest, -, e⟩ | ⟨rest, -, e⟩ | ⟨rest, -, e⟩ | ⟨rest, -, e⟩ |
    ⟨r, rest, i, -, -, e⟩ | ⟨r, rest, why, -, -, e⟩ <;> rw [e] at h
  · cases h; exact .kept rfl
  · cases h; exact causeStep_turn (s.taken _)
  · cases h; exact causeStep_turn (s.taken rest)
  · cases h; exact .kept (acknowledge_cause (s.taken rest))
  · cases h; exact causeStep_xfail (s.taken rest)
  · cases h; exact .cleared rfl
  · exact causeStep_exec (s := s.taken rest) h
  · cases h

/-- A step that begins by entering a raise stands in `FAULT` when it takes its event, so only a reset can still move the cause
(R95, R97). -/
theorem causeStep_step {s t : State} (h : step s = .next t) : CauseStep s.seq t.seq := by
  have hevent := causeStep_stepEvent h
  rcases s.takeRaise_cases with ⟨e, -⟩ | ⟨c, hm, -, -, e⟩ <;> rw [e] at hevent
  · exact hevent
  · cases hevent with
    | kept hkept => exact .invalidChip hkept hm
    | cleared hnone => exact .cleared hnone
    | invalidChip _ hidle => cases hidle
    | transport _ hbusy => cases hbusy

/-- Settles O42, by `causeStep_step`: a cause that changes and is not cleared is one of the mode. -/
theorem faultsComeFromTheirMode : Obligations.FaultsComeFromTheirMode := by
  intro s t h hne
  cases causeStep_step h with
  | kept hkept => exact absurd hkept hne
  | cleared hnone => simp [hnone]
  | invalidChip hcause hm => simp [hcause, hm]
  | transport hcause hm => simp [hcause, hm]

end Sys2Proof.Machine

/-! ### Reset, waiting for an acknowledgment, and the end of a run -/

namespace Sys2Proof.Machine

open Sys2Proof.Safety

theorem stepEvent_rst {s : State} {rest : List Event} (hs : s.schedule = .rst :: rest) :
    stepEvent s = .next (s.taken rest).resetEvent := by
  simp [stepEvent, hs]

/-- Reset as a step of the block, from every state (R102). -/
theorem step_rst {s : State} {rest : List Event} (hs : s.schedule = .rst :: rest) :
    step s = .next (s.takeRaise.taken rest).resetEvent :=
  stepEvent_rst (s.takeRaise_schedule.trans hs)

/-- Settles O5: the step is `step_rst`, and every field of its next state stands in `State.resetEvent`. -/
theorem rstResetsEveryState : Obligations.RstResetsEveryState := fun _ _ hs =>
  ⟨_, step_rst hs, rfl, rfl, rfl, rfl, Memory.read?_nil, rfl⟩

/-- With a command pending a turn of the block has no move (R77, R108). -/
theorem turn_pending {s : State} (hm : s.seq.mode = .busy) (hp : s.seq.pending = true) : turn s = s :=
  turn_notEnabled (fun _ => hp) (by simp [hm])

/-- With a command pending and nothing scheduled the block waits (R108; log entry 18). -/
theorem step_waiting {s : State} (hm : s.seq.mode = .busy) (hp : s.seq.pending = true) (hs : s.schedule = []) :
    step s = .next s := by
  rw [step_of_notIdle s (by simp [hm])]
  simp [stepEvent, hs, canMove, hm, hp]

/-- A step that changes nothing can be repeated any number of times. -/
theorem stepN_of_step_self {s : State} (h : step s = .next s) (n : Nat) : stepN n s = .next s := by
  induction n with
  | zero => rfl
  | succ n ih => simpa [stepN, h] using ih

/-- With a command pending a step leaves the sequencer as it is, or takes one of the three events that R108 allows to end the
wait: a turn has no move (`turn_pending`), and a request does not touch the pass (`step_request_notIdle`). -/
theorem step_pending_cases {s t : State} (hm : s.seq.mode = .busy) (hp : s.seq.pending = true) (h : step s = .next t) :
    t.seq = s.seq ∨ ∃ rest, s.schedule = .ack :: rest ∨ s.schedule = .xfail :: rest ∨ s.schedule = .rst :: rest := by
  have hidle : s.seq.mode ≠ .idle := by simp [hm]
  cases hs : s.schedule with
  | nil =>
    cases (step_waiting hm hp hs).symm.trans h
    exact .inl rfl
  | cons e rest =>
    cases e with
    | turn =>
      rw [step_of_notIdle s hidle, stepEvent_turn hs, turn_pending (s := s.taken rest) hm hp] at h
      cases h
      exact .inl rfl
    | ack => exact .inr ⟨rest, .inl rfl⟩
    | xfail => exact .inr ⟨rest, .inr (.inl rfl)⟩
    | rst => exact .inr ⟨rest, .inr (.inr rfl)⟩
    | request r => exact .inl (step_request_notIdle hidle hs h).1

/-- Settles O43, by `step_waiting` and `step_pending_cases`. -/
theorem missingAckBlocksForEver : Obligations.MissingAckBlocksForEver :=
  ⟨fun _ n hm hp hs => stepN_of_step_self (step_waiting hm hp hs) n,
    fun _ _ hm hp h hmoved => (step_pending_cases hm hp h).resolve_left hmoved⟩

theorem start_out (c : Nat) (s : State) : (start c s).out = s.out := by
  rcases start_cases c s with e | ⟨-, -, e⟩ | ⟨-, -, e⟩ <;> rw [e]
  rfl

theorem acknowledge_out (s : State) : (acknowledge s).out = s.out := by
  rcases ackWith_cases Config.T s with e | ⟨c, -, -, -, e⟩ <;> rw [acknowledge, e]

theorem xfail_out (s : State) : (xfail s).out = s.out := by
  rcases xfail_cases s with ⟨-, e⟩ | ⟨-, e⟩ <;> rw [e]
  rfl

/-- A turn outside `BUSY` at most makes the next request of a full pass, and emits nothing (R75, R77). -/
theorem turn_out_of_notBusy {s : State} (hm : s.seq.mode ≠ .busy) : (turn s).out = s.out := by
  rcases turn_cases s with e | ⟨hbusy, -⟩ | ⟨c, rest, -, -, e⟩
  · rw [e]
  · exact absurd hbusy hm
  · rw [e]
    exact start_out c { s with plan := rest }

/-- Outside `BUSY` only a reset changes `out` (R18, R77, R102): entering a raise that is due begins no pass, so a turn taken
after it emits nothing either. -/
theorem step_out_of_notBusy {s t : State} (hm : s.seq.mode ≠ .busy) (h : step s = .next t) :
    t.out = s.out ∨ ∃ rest, s.schedule = .rst :: rest := by
  have hbusy : s.takeRaise.seq.mode ≠ .busy := mt s.takeRaise_busy_iff.mp hm
  have hturn (rest : List Event) : (turn (s.takeRaise.taken rest)).out = s.out :=
    (turn_out_of_notBusy (s := s.takeRaise.taken rest) hbusy).trans s.takeRaise_out
  rcases step_cases s with ⟨-, -, e⟩ | ⟨-, -, e⟩ | ⟨rest, -, e⟩ | ⟨rest, -, e⟩ | ⟨rest, -, e⟩ | ⟨rest, hs, -⟩ |
    ⟨r, rest, i, -, -, e⟩ | ⟨r, rest, why, -, -, e⟩
  · cases e.symm.trans h
    exact .inl s.takeRaise_out
  · cases e.symm.trans h
    exact .inl (hturn _)
  · cases e.symm.trans h
    exact .inl (hturn rest)
  · cases e.symm.trans h
    exact .inl ((acknowledge_out _).trans s.takeRaise_out)
  · cases e.symm.trans h
    exact .inl ((xfail_out _).trans s.takeRaise_out)
  · exact .inr ⟨rest, hs⟩
  · exact .inl ((exec_out i _ t (e.symm.trans h)).trans s.takeRaise_out)
  · cases e.symm.trans h

/-- A run ends in `IDLE` with no raise due, or in `FAULT` (R112, U1; log entry 5). -/
theorem runOver_mode {s : State} (h : runOver s) : (s.seq.mode = .idle ∧ s.due = none) ∨ s.seq.mode = .fault := by
  rcases h with ⟨hidle, -, -, hdue⟩ | hfault
  · exact .inl ⟨hidle, hdue⟩
  · exact .inr hfault

theorem not_runOver_of_busy {s : State} (hm : s.seq.mode = .busy) : ¬ runOver s := fun h => by
  simpa [hm] using runOver_mode h

/-- `IDLE` with a raise due is no end of a run (U1; log entry 5): said in the words of O60, and not by its definition. -/
theorem not_runOver_of_due {s : State} (hm : s.seq.mode = .idle) (hd : s.due ≠ none) : ¬ runOver s := fun h => by
  simpa [hm, hd] using runOver_mode h

/-- Settles O60: a run is not over in `BUSY` (`not_runOver_of_busy`), and outside `BUSY` a step emits nothing
(`step_out_of_notBusy`). -/
theorem finalStatesEmitNothing : Obligations.FinalStatesEmitNothing :=
  ⟨fun _ => not_runOver_of_busy, fun _ _ hover h => step_out_of_notBusy (fun hm => not_runOver_of_busy hm hover) h⟩

end Sys2Proof.Machine
